-- ==== Sys2Proof/Word.lean ====
section
/-! DEFINITION. The word and the byte of the RC6 engine (spec/00_scope.md R12, spec/40_arithmetic.md R120). -/

namespace Sys2Proof

/-- A word: an unsigned integer in 0 .. 2³²−1 (R12, R120). -/
abbrev Word := BitVec 32

/-- A byte: an unsigned integer in 0 .. 255 (R12). -/
abbrev Byte := BitVec 8

end Sys2Proof
end

