-- ==== Sys2Proof/Config.lean ====
section
/-! DEFINITION. The parameters of spec/00_scope.md R9 (fixed by the source) and R10 (fixed by the spec). None is
configurable. The sizes that stand in types are literals there: 44 (RK_WORDS) and 4 (KEY_WORDS) words, 16 bytes
(BLOCK_BYTES, KEY_BYTES), 9 address bits (ADDR_BITS), 32 bits (W, BUS_BITS, CMD_BITS).
There is no free value: no rule leaves a result open after which the machine goes on. -/

namespace Sys2Proof.Config

/-- ROUNDS (R9). -/
abbrev rounds : Nat := 20
/-- KEY_BYTES, the only accepted key length (R9). -/
abbrev keyBytes : Nat := 16
/-- KS_ITER, the mixing iterations of the key schedule (R9). -/
abbrev ksIter : Nat := 132
/-- BLOCK_BYTES (R9). -/
abbrev blockBytes : Nat := 16
/-- P, the first word of S0 (R9). -/
abbrev P : Word := 0xB7E15163#32
/-- Q, the increment of S0 (R9). -/
abbrev Q : Word := 0x9E3779B9#32
/-- ROT_KS, the fixed left rotation of the key schedule (R9). -/
abbrev rotKs : Nat := 3
/-- ROT_RND, the fixed left rotation of the round function (R9). -/
abbrev rotRnd : Nat := 5
/-- BUF_BYTES (R10). -/
abbrev bufBytes : Nat := 256
/-- KLEN_BITS, the width of the key-length field (R10). -/
abbrev klenBits : Nat := 16
/-- OFF_BITS, the width of a buffer offset (R10). -/
abbrev offBits : Nat := 8

end Sys2Proof.Config
end

