-- ==== Sys2Proof/Syntax.lean ====
section
/-! DEFINITION. The commands, one constructor per row of spec/opcode_table.json. -/

namespace Sys2Proof

/-- The four commands of spec/30_encoding.md R92, with the operands of R93 as the unsigned numbers they are. The
bounds that the encoding puts on the operands (R100) are `Instr.WellFormed`. -/
inductive Instr where
  /-- `KSCHED koff, klen` (R150). -/
  | ksched (koff klen : Nat)
  /-- `ENC dst, src` (R170). -/
  | enc (dst src : Nat)
  /-- `DEC dst, src` (R190). -/
  | dec (dst src : Nat)
  /-- `CLR` (R210). -/
  | clr
  deriving DecidableEq, Repr

end Sys2Proof
end

