-- ==== Sys2Proof/WellFormed.lean ====
section
/-! DEFINITION. Which commands a command word can spell. -/

namespace Sys2Proof

/-- The operands fit their fields: `0 ≤ koff, src, dst ≤ 255` and `0 ≤ klen ≤ 65535` (spec/30_encoding.md R93, R100;
a longer key length is expressed by no word, spec/93_implementation_defined.md U10). -/
def Instr.wellFormed : Instr → Bool
  | .ksched koff klen => koff < 2 ^ Config.offBits && klen < 2 ^ Config.klenBits
  | .enc dst src => dst < 2 ^ Config.offBits && src < 2 ^ Config.offBits
  | .dec dst src => dst < 2 ^ Config.offBits && src < 2 ^ Config.offBits
  | .clr => true

/-- `Instr.wellFormed` as a proposition. -/
abbrev Instr.WellFormed (i : Instr) : Prop := i.wellFormed = true

end Sys2Proof
end

