-- ==== Sys2Proof/Decode.lean ====
section
/-! DEFINITION. The command decoder (spec/30_encoding.md R97), total on 32-bit words, and the encoder (R100). -/

namespace Sys2Proof

/-- Why a word is no command: `ILLEGAL(c)` of R97, told apart by the rule that makes it illegal. -/
inductive DecodeReject where
  /-- `OP` is 0 or 5..15 (R95). -/
  | reservedOpcode
  /-- `OP` is 1..4 and a must-be-zero field holds a 1 (R94). -/
  | mustBeZero
  deriving DecidableEq, Repr

/-- `v[lo+len-1 : lo]` as an unsigned number (spec/00_scope.md R12). -/
def field (c : Word) (lo len : Nat) : Nat := (c.extractLsb' lo len).toNat

/-- `Decode(c)` of R97. -/
def decode (c : Word) : Except DecodeReject Instr :=
  match field c 0 4 with
  | 1 => if field c 4 4 = 0 then .ok (.ksched (field c 8 8) (field c 16 16)) else .error .mustBeZero
  | 2 => if field c 4 4 = 0 ∧ field c 24 8 = 0 then .ok (.enc (field c 16 8) (field c 8 8)) else .error .mustBeZero
  | 3 => if field c 4 4 = 0 ∧ field c 24 8 = 0 then .ok (.dec (field c 16 8) (field c 8 8)) else .error .mustBeZero
  | 4 => if field c 4 28 = 0 then .ok .clr else .error .mustBeZero
  | _ => .error .reservedOpcode

/-- `Encode(x)` of R100, the inverse of `decode` on well-formed commands. -/
def encode : Instr → Word
  | .ksched koff klen => BitVec.ofNat 32 (klen * 2 ^ 16 + koff * 2 ^ 8 + 1)
  | .enc dst src => BitVec.ofNat 32 (dst * 2 ^ 16 + src * 2 ^ 8 + 2)
  | .dec dst src => BitVec.ofNat 32 (dst * 2 ^ 16 + src * 2 ^ 8 + 3)
  | .clr => 4#32

/-- The command word whose low `nbits` bits are those of `w` and whose other bits are 0. -/
def tableWord (nbits w : Nat) : Word := BitVec.ofNat 32 (w % 2 ^ nbits)

/-- The command the decoder reads from the word `w` of a row of spec/opcode_table.json (a command is one 32-bit word,
R90, numbered as the table numbers it). -/
def decodeTableWord (nbits w : Nat) : Option Instr :=
  match decode (tableWord nbits w) with
  | .ok i => some i
  | .error _ => none

end Sys2Proof
end

