-- ==== Sys2Proof/Machine/Arith.lean ====
section
/-! DEFINITION. The 32-bit arithmetic primitives of spec/40_arithmetic.md. All are total; none records anything beyond
its 32-bit result (R120, R128, spec/10_state.md R35). -/

namespace Sys2Proof.Machine

/-- `add32(a, b) = (a + b) mod 2³²` (R121). -/
def add32 (a b : Word) : Word := a + b

/-- `sub32(a, b) = (a − b) mod 2³²` (R122). -/
def sub32 (a b : Word) : Word := a - b

/-- `mul32(a, b) = (a · b) mod 2³²` (R123). -/
def mul32 (a b : Word) : Word := a * b

/-- `xor32(a, b)`, bit by bit (R124). -/
def xor32 (a b : Word) : Word := a ^^^ b

/-- `rotl32(x, n)`: bit `i` of `x` becomes bit `(i + n) mod 32` (R125). -/
def rotl32 (x : Word) (n : Nat) : Word := x.rotateLeft n

/-- `rotr32(x, n)`: bit `i` of `x` becomes bit `(i − n) mod 32` (R126). -/
def rotr32 (x : Word) (n : Nat) : Word := x.rotateRight n

/-- The rotation count taken from a data word, `v mod 32` (R127). -/
def rotCount (v : Word) : Nat := v.toNat % 32

/-- The quadratic function `f(x) = x · (2x + 1) mod 2³²` (R129). -/
def quad (x : Word) : Word := mul32 x (add32 (add32 x x) 1#32)

/-- `G(x) = rotl32(f(x), 5)` (R129). -/
def G (x : Word) : Word := rotl32 (quad x) Config.rotRnd

end Sys2Proof.Machine
end

