-- ==== Sys2Proof/Machine/State.lean ====
section
/-! DEFINITION. The state of the RC6 engine (spec/10_state.md R20), the host port's events and responses
(spec/20_memory.md R52), the reasons a step stops, and the state after reset (R38). -/

namespace Sys2Proof.Machine

/-- The round-key array: 44 words in every state (R21, R23). -/
abbrev RoundKeys := Vector Word 44

/-- The contents of BUF as (index, byte) pairs in one canonical form (`Memory.wf`): indices strictly rising and below
256, and no entry equal to the 0x00 that an unlisted index reads as (the reset contents, R38). DESIGN CHOICE of
representation, log 7. -/
abbrev Memory := List Host.Cell

/-- A host transaction as the port accepts it (spec/20_memory.md R52, R54, R55): `req_we`, `req_addr`, `req_wdata`. -/
inductive Request where
  /-- `RD addr`. -/
  | read (addr : BitVec 9)
  /-- `WR addr, data`. -/
  | write (addr : BitVec 9) (data : Word)
  deriving DecidableEq, Repr

/-- What can happen to the engine from outside (spec/60_exceptions.md R241). -/
inductive HostEvent where
  /-- A transaction is accepted and answered. -/
  | request (r : Request)
  /-- `rst` (spec/70_reset_and_hazards.md R270); `abandoned` is the request that was outstanding when it came, if one
  was: it gets no response and leaves no effect. -/
  | reset (abandoned : Option Request)
  deriving DecidableEq, Repr

/-- One response of the port (spec/20_memory.md R52): `rsp_err` and `rsp_rdata`. -/
structure Response where
  /-- `rsp_err`: true is a bus error. -/
  err : Bool
  /-- `rsp_rdata`. -/
  rdata : Word
  deriving DecidableEq, Repr

/-- The state. The first five fields are the complete architectural state of R20; the last two are the model's own
view of the host port (DESIGN CHOICE, log 1 and log 2). -/
structure State where
  /-- `RK[0..43]` (R21). -/
  rk : RoundKeys
  /-- `RK_VALID` (R22). -/
  rkValid : Bool
  /-- `ERR` (R24). -/
  err : BitVec 4
  /-- `ERRINFO` (R25). -/
  errinfo : Word
  /-- `BUF[0..255]` (R30). -/
  buf : Memory
  /-- The host's events still to come, oldest first. -/
  pending : List HostEvent
  /-- The responses given so far, oldest first. -/
  responses : List Response
  deriving DecidableEq, Repr

/-- The reasons a step ends in a fault: none. Every error the spec describes is a next state (a command error,
spec/60_exceptions.md R236) or a response (a bus error, R239), and no rule lets anything stop the engine (log 6). -/
inductive Fault where
  deriving DecidableEq, Repr

/-- The reasons a step has no meaning. -/
inductive Refusal where
  /-- Raised by an arm of `exec` that has no meaning yet; safe. -/
  | notModelled (mnemonic : String)
  /-- Raised by ENC and DEC when all their checks pass and `0 < |dst − src| < 16`: the spec gives the command no
  meaning and says that a model refuses it (spec/20_memory.md R66, spec/93_implementation_defined.md U1); safe
  (log 5). -/
  | partialOverlap (dst src : Nat)
  deriving DecidableEq, Repr

/-- The state after reset (spec/10_state.md R38, spec/70_reset_and_hazards.md R270), with no event placed and no
response given. -/
def State.reset : State where
  rk := Vector.replicate 44 0#32
  rkValid := false
  err := 0#4
  errinfo := 0#32
  buf := []
  pending := []
  responses := []

end Sys2Proof.Machine
end

