-- ==== Sys2Proof/Machine/Flags.lean ====
section
/-! DEFINITION. The status bits: the error codes (spec/60_exceptions.md R230) and the word that `STATUS` reads as
(spec/10_state.md R26). The engine has no condition code (R35). -/

namespace Sys2Proof.Machine

/-- The errors a command can raise (R230). -/
inductive ErrorKind where
  | invalidKeySize
  | noKey
  | bufRange
  | illegalCmd
  deriving DecidableEq, Repr

/-- The code 0, `NONE` (R230). -/
def codeNone : BitVec 4 := 0#4

/-- The code of an error (R230). -/
def ErrorKind.code : ErrorKind → BitVec 4
  | .invalidKeySize => 1#4
  | .noKey => 2#4
  | .bufRange => 3#4
  | .illegalCmd => 4#4

/-- `STATUS` as it is read: `zext_32({ERR[3:0], 0b000, RK_VALID})` (R26). -/
def statusWord (s : State) : Word :=
  (s.err ++ 0#3 ++ BitVec.ofBool s.rkValid).setWidth 32

end Sys2Proof.Machine
end

