-- ==== Sys2Proof/Machine/Operands.lean ====
section
/-! DEFINITION. What a command's operands name, and the byte order: the layouts of keys and blocks
(spec/20_memory.md R57 to R61) and the checks on buffer offsets (R63, R66, R67). -/

namespace Sys2Proof.Machine

/-- The 16 bytes of a key or of a block, lowest index first. -/
abbrev Bytes16 := Vector Byte 16

/-- The four words `(A, B, C, D)` of a block (R60), and the four key words `L[0..3]` in that order (R61). -/
structure Quad where
  a : Word
  b : Word
  c : Word
  d : Word
  deriving DecidableEq, Repr

/-- `LE32(b0, b1, b2, b3) = b0 + 2⁸·b1 + 2¹⁶·b2 + 2²⁴·b3` (R58). -/
def le32 (b0 b1 b2 b3 : Byte) : Word := b3 ++ b2 ++ b1 ++ b0

/-- `ST32(w) = (w[7:0], w[15:8], w[23:16], w[31:24])` (R59). -/
def st32 (w : Word) : Vector Byte 4 :=
  #v[w.extractLsb' 0 8, w.extractLsb' 8 8, w.extractLsb' 16 8, w.extractLsb' 24 8]

/-- Four little-endian words from 16 bytes: the decoding of a block (R60) and of a key (R61). -/
def quadOfBytes (p : Bytes16) : Quad where
  a := le32 p[0] p[1] p[2] p[3]
  b := le32 p[4] p[5] p[6] p[7]
  c := le32 p[8] p[9] p[10] p[11]
  d := le32 p[12] p[13] p[14] p[15]

/-- The encoding of four words to 16 bytes, `ST32(A) ++ ST32(B) ++ ST32(C) ++ ST32(D)` (R60). -/
def bytesOfQuad (q : Quad) : Bytes16 := st32 q.a ++ st32 q.b ++ st32 q.c ++ st32 q.d

/-- The range check of R67: the buffer that `off` names runs to the end of BUF, and holds at least 16 bytes
(`off + 16 ≤ 256`, that is `off ≤ 240`). Any such offset is allowed: there is no alignment (R63). -/
abbrev inRange (off : Nat) : Prop := off + Config.blockBytes ≤ Config.bufBytes

/-- `0 < |dst − src| < 16` (R66): the two regions share some but not all of their bytes. -/
abbrev partialOverlap (dst src : Nat) : Prop :=
  0 < ((dst : Int) - (src : Int)).natAbs ∧ ((dst : Int) - (src : Int)).natAbs < Config.blockBytes

end Sys2Proof.Machine
end

