-- ==== Sys2Proof/Machine/Ops.lean ====
section
/-! DEFINITION. The named operations on BUF and on the state: the engine-side memory primitives (spec/20_memory.md
R62), error entry and success (spec/60_exceptions.md R236, R237), the two writers of RK, the port's response, reset. -/

namespace Sys2Proof.Machine

/-- What an index with no entry reads as: the reset contents of BUF (spec/10_state.md R38). -/
def Memory.unlisted : Byte := 0#8

/-- `BUF[k]` (R13, R30). -/
def Memory.read : Memory → Nat → Byte
  | [], _ => Memory.unlisted
  | (k', b) :: m, k => if k' = k then b else Memory.read m k

/-- `BUF[k] <- v`, keeping the canonical form. -/
def Memory.write : Memory → Nat → Byte → Memory
  | [], k, v => if v = Memory.unlisted then [] else [(k, v)]
  | (k', b) :: m, k, v =>
    if k < k' then
      if v = Memory.unlisted then (k', b) :: m else (k, v) :: (k', b) :: m
    else if k' = k then
      if v = Memory.unlisted then m else (k, v) :: m
    else (k', b) :: Memory.write m k v

/-- Every index of `m` is at least `lo`, the indices rise strictly and stay below 256, and no entry is the byte that an
unlisted index reads as. -/
def Memory.wfFrom : Nat → Memory → Bool
  | _, [] => true
  | lo, (k, b) :: m => lo ≤ k && k < Config.bufBytes && b != Memory.unlisted && Memory.wfFrom (k + 1) m

/-- The canonical form of a memory. -/
def Memory.wf (m : Memory) : Bool := Memory.wfFrom 0 m

/-- `MemRead(off, 16)`: the bytes `BUF[off] .. BUF[off+15]`, lowest index first (R62; commands read 16 bytes at a time,
R64). -/
def memRead16 (m : Memory) (off : Nat) : Bytes16 :=
  #v[m.read off, m.read (off + 1), m.read (off + 2), m.read (off + 3),
     m.read (off + 4), m.read (off + 5), m.read (off + 6), m.read (off + 7),
     m.read (off + 8), m.read (off + 9), m.read (off + 10), m.read (off + 11),
     m.read (off + 12), m.read (off + 13), m.read (off + 14), m.read (off + 15)]

/-- `BUF[off+j] <- bytes[j]` for every j, in ascending order (R62). -/
def memWriteList : Memory → Nat → List Byte → Memory
  | m, _, [] => m
  | m, off, b :: bs => memWriteList (m.write off b) (off + 1) bs

/-- `MemWrite(off, n, bytes)` (R62). -/
def memWrite {n : Nat} (m : Memory) (off : Nat) (bytes : Vector Byte n) : Memory :=
  memWriteList m off bytes.toList

/-- `raise E(info)`: error entry (spec/60_exceptions.md R236). The code and the information word are written, nothing
is saved, and nothing else changes. -/
def raiseError (e : ErrorKind) (info : Word) (s : State) : State :=
  { s with err := e.code, errinfo := info }

/-- The end of a command that succeeds: `ERR <- 0 ; ERRINFO <- 0`. There is no return from an error; this is what
clears the report of an earlier one (spec/60_exceptions.md R237, spec/10_state.md R24, R25). -/
def complete (s : State) : State := { s with err := codeNone, errinfo := 0#32 }

/-- `RK <- rk ; RK_VALID <- 1`: all 44 words at once (spec/41_key_schedule.md R153). -/
def installKey (rk : RoundKeys) (s : State) : State := { s with rk := rk, rkValid := true }

/-- `RK[n] <- 0` for n = 0..43, `RK_VALID <- 0` (spec/44_system.md R210). -/
def discardKey (s : State) : State :=
  { s with rk := Vector.replicate 44 0#32, rkValid := false }

/-- `MemWrite(off, n, bytes)` on the state's BUF. -/
def storeBytes {n : Nat} (off : Nat) (bytes : Vector Byte n) (s : State) : State :=
  { s with buf := memWrite s.buf off bytes }

/-- ENC and DEC, which differ in the block function `f` only (spec/42_encrypt.md R171, spec/43_decrypt.md R191): the
checks in their order (spec/60_exceptions.md R235), the undefined partial overlap (spec/20_memory.md R66), then all 16
bytes read, transformed and written (R65). -/
def blockCommand (f : RoundKeys → Bytes16 → Bytes16) (dst src : Nat) (s : State) :
    Host.Outcome State Fault Refusal :=
  if s.rkValid = false then .next (raiseError .noKey 0#32 s)
  else if ¬ inRange src then .next (raiseError .bufRange (BitVec.ofNat 32 src) s)
  else if ¬ inRange dst then .next (raiseError .bufRange (BitVec.ofNat 32 dst) s)
  else if partialOverlap dst src then .refused (.partialOverlap dst src)
  else .next (complete (storeBytes dst (f s.rk (memRead16 s.buf src)) s))

/-- The port gives the response `r` (spec/20_memory.md R52). -/
def respond (r : Response) (s : State) : State := { s with responses := s.responses ++ [r] }

/-- Reset: every element of spec/10_state.md R20 at its reset value, and no response (spec/70_reset_and_hazards.md
R270). The model's own two fields stay: what the host does next, and what it has already been told (log 4). -/
def resetEngine (s : State) : State :=
  { State.reset with pending := s.pending, responses := s.responses }

end Sys2Proof.Machine
end

