-- ==== Sys2Proof/Machine/Cipher.lean ====
section
/-! DEFINITION. The block operations: the commands ENC (spec/42_encrypt.md) and DEC (spec/43_decrypt.md). -/

namespace Sys2Proof.Machine

/-- `RK[n]` (R21); the rules use it for n in 0..43 only. -/
def rkWord (rk : RoundKeys) (n : Nat) : Word := if h : n < 44 then rk[n] else 0#32

/-- Round `i` of encryption, step 3 of R172: `t` and `u` come from the `B` and `D` of the start of the round, and the
rotation of the quadruple is last. -/
def encRound (rk : RoundKeys) (i : Nat) (q : Quad) : Quad :=
  let t := G q.b
  let u := G q.d
  let a := add32 (rotl32 (xor32 q.a t) (rotCount u)) (rkWord rk (2 * i))
  let c := add32 (rotl32 (xor32 q.c u) (rotCount t)) (rkWord rk (2 * i + 1))
  { a := q.b, b := c, c := q.d, d := a }

/-- Rounds 1..n in ascending order. -/
def encRounds (rk : RoundKeys) : Nat → Quad → Quad
  | 0, q => q
  | n + 1, q => encRound rk (n + 1) (encRounds rk n q)

/-- Step 2 of R172. -/
def preWhiten (rk : RoundKeys) (q : Quad) : Quad :=
  { q with b := add32 q.b (rkWord rk 0), d := add32 q.d (rkWord rk 1) }

/-- Step 4 of R172. -/
def postWhiten (rk : RoundKeys) (q : Quad) : Quad :=
  { q with a := add32 q.a (rkWord rk 42), c := add32 q.c (rkWord rk 43) }

/-- `EncBlock(RK, p)` (R172). -/
def encBlock (rk : RoundKeys) (p : Bytes16) : Bytes16 :=
  bytesOfQuad (postWhiten rk (encRounds rk Config.rounds (preWhiten rk (quadOfBytes p))))

/-- Round `i` of decryption (R192): the quadruple is un-rotated first, and `t` and `u` come from the un-rotated `B` and
`D`. -/
def decRound (rk : RoundKeys) (i : Nat) (q : Quad) : Quad :=
  let r : Quad := { a := q.d, b := q.a, c := q.b, d := q.c }
  let u := G r.d
  let t := G r.b
  let c := xor32 (rotr32 (sub32 r.c (rkWord rk (2 * i + 1))) (rotCount t)) u
  let a := xor32 (rotr32 (sub32 r.a (rkWord rk (2 * i))) (rotCount u)) t
  { r with a := a, c := c }

/-- Rounds n downto 1. -/
def decRounds (rk : RoundKeys) : Nat → Quad → Quad
  | 0, q => q
  | n + 1, q => decRounds rk n (decRound rk (n + 1) q)

/-- The first step of R192, which undoes `postWhiten`. -/
def undoPostWhiten (rk : RoundKeys) (q : Quad) : Quad :=
  { q with c := sub32 q.c (rkWord rk 43), a := sub32 q.a (rkWord rk 42) }

/-- The last arithmetic step of R192, which undoes `preWhiten`. -/
def undoPreWhiten (rk : RoundKeys) (q : Quad) : Quad :=
  { q with d := sub32 q.d (rkWord rk 1), b := sub32 q.b (rkWord rk 0) }

/-- `DecBlock(RK, q)` (R192). -/
def decBlock (rk : RoundKeys) (q : Bytes16) : Bytes16 :=
  bytesOfQuad (undoPreWhiten rk (decRounds rk Config.rounds (undoPostWhiten rk (quadOfBytes q))))

/-- `ENC dst, src` (R171). -/
def execEnc (dst src : Nat) (s : State) : Host.Outcome State Fault Refusal := blockCommand encBlock dst src s

/-- `DEC dst, src` (R191). -/
def execDec (dst src : Nat) (s : State) : Host.Outcome State Fault Refusal := blockCommand decBlock dst src s

end Sys2Proof.Machine
end

