-- ==== Sys2Proof/Machine/KeySchedule.lean ====
section
/-! DEFINITION. The key schedule and the command KSCHED (spec/41_key_schedule.md), with the constant table S0
(spec/10_state.md R31). -/

namespace Sys2Proof.Machine

/-- `S0[i]`: `S0[0] = P`, `S0[i] = S0[i−1] + Q (mod 2³²)` (R31). -/
def s0Word : Nat → Word
  | 0 => Config.P
  | i + 1 => add32 (s0Word i) Config.Q

/-- The constant table S0 (R31). -/
def S0 : RoundKeys := Vector.ofFn fun i : Fin 44 => s0Word i

/-- The working registers of the key schedule (R152; no state, spec/10_state.md R32): the working array `S`, the key
words `L`, the accumulators `KA`, `KB`, the cursors `i` (modulo 44) and `j` (modulo 4). -/
structure KeyMix where
  S : RoundKeys
  L : Vector Word 4
  KA : Word
  KB : Word
  i : Fin 44
  j : Fin 4
  deriving DecidableEq, Repr

/-- Steps 1 and 2 of R152, and the start of step 3. -/
def mixStart (key : Bytes16) : KeyMix where
  S := S0
  L := #v[(quadOfBytes key).a, (quadOfBytes key).b, (quadOfBytes key).c, (quadOfBytes key).d]
  KA := 0#32
  KB := 0#32
  i := 0
  j := 0

/-- One mixing iteration, step 3 of R152: the second half uses the new `KA` and the old `KB`. -/
def mixStep (m : KeyMix) : KeyMix :=
  let ka := rotl32 (add32 (add32 m.S[m.i] m.KA) m.KB) Config.rotKs
  let sum := add32 ka m.KB
  let kb := rotl32 (add32 m.L[m.j] sum) (rotCount sum)
  { S := m.S.set m.i ka, L := m.L.set m.j kb, KA := ka, KB := kb, i := m.i + 1, j := m.j + 1 }

/-- The first `n` mixing iterations from `m`. -/
def mixSteps : Nat → KeyMix → KeyMix
  | 0, m => m
  | n + 1, m => mixSteps n (mixStep m)

/-- `KeyExpand(key)` (R152). -/
def keyExpand (key : Bytes16) : RoundKeys := (mixSteps Config.ksIter (mixStart key)).S

/-- `KSCHED koff, klen` (R151, R153, R154): the length is checked first and the offset second. -/
def execKsched (koff klen : Nat) (s : State) : Host.Outcome State Fault Refusal :=
  if klen ≠ Config.keyBytes then .next (raiseError .invalidKeySize (BitVec.ofNat 32 klen) s)
  else if ¬ inRange koff then .next (raiseError .bufRange (BitVec.ofNat 32 koff) s)
  else .next (complete (installKey (keyExpand (memRead16 s.buf koff)) s))

end Sys2Proof.Machine
end

