-- ==== Sys2Proof/Machine/System.lean ====
section
/-! DEFINITION. The housekeeping command CLR (spec/44_system.md) and the illegal command. -/

namespace Sys2Proof.Machine

/-- `CLR` (R210). It cannot fail. -/
def execClr (s : State) : Host.Outcome State Fault Refusal := .next (complete (discardKey s))

/-- A word `c` that decodes to no command is written to `CMD`: `ILLEGAL_CMD`, with the word as the information
(spec/60_exceptions.md R234). -/
def raiseIllegal (c : Word) (s : State) : State := raiseError .illegalCmd c s

end Sys2Proof.Machine
end

