-- ==== Sys2Proof/Machine/Dispatch.lean ====
section
/-! DEFINITION. The meaning of every command, one arm per constructor of Instr. -/

namespace Sys2Proof.Machine

-- The meaning of a command word written to CMD, once decoded (spec/30_encoding.md R97).
def exec (i : Instr) (s : State) : Host.Outcome State Fault Refusal :=
  match i with
  | .ksched koff klen => Sys2Proof.Machine.execKsched koff klen s
  | .enc dst src => Sys2Proof.Machine.execEnc dst src s
  | .dec dst src => Sys2Proof.Machine.execDec dst src s
  | .clr => Sys2Proof.Machine.execClr s

end Sys2Proof.Machine
end

