-- ==== Sys2Proof/Machine/Bus.lean ====
section
/-! DEFINITION. The host port at the level of transactions (spec/20_memory.md R50 to R57). -/

namespace Sys2Proof.Machine

/-- The registers and the window of the address map (R51). -/
inductive Port where
  | cmd
  | status
  | errinfo
  | blksize
  /-- The window word at `0x100 + k`: `k` is the index in BUF of its lowest byte (R50). -/
  | window (k : Nat)
  | unmapped
  deriving DecidableEq, Repr

/-- `addr[1:0] ≠ 0` (R56, condition 1). -/
def misaligned (addr : BitVec 9) : Bool := addr.toNat % 4 != 0

/-- The address map (R51). -/
def portAt (addr : BitVec 9) : Port :=
  if addr.toNat = 0x000 then .cmd
  else if addr.toNat = 0x004 then .status
  else if addr.toNat = 0x008 then .errinfo
  else if addr.toNat = 0x00C then .blksize
  else if addr.toNat < 0x100 then .unmapped
  else .window (addr.toNat - 0x100)

/-- The address a request carries. -/
def Request.addr : Request → BitVec 9
  | .read addr => addr
  | .write addr _ => addr

/-- A port that a request may not use in its direction: unmapped, a read of a write-only register, a write of a
read-only register (R56, conditions 2 to 4). -/
def forbidden : Request → Port → Bool
  | _, .unmapped => true
  | .read _, .cmd => true
  | .write _ _, .status => true
  | .write _ _, .errinfo => true
  | .write _ _, .blksize => true
  | .read _, .status => false
  | .read _, .errinfo => false
  | .read _, .blksize => false
  | .read _, .window _ => false
  | .write _ _, .cmd => false
  | .write _ _, .window _ => false

/-- A transaction that is a bus error (R56). -/
def busError (r : Request) : Bool := misaligned r.addr || forbidden r (portAt r.addr)

/-- The response to a bus error (R56). -/
def errorResponse : Response := { err := true, rdata := 0#32 }

/-- The response to a write that is no bus error (R55). -/
def writeResponse : Response := { err := false, rdata := 0#32 }

/-- The value of `BLKSIZE` (spec/10_state.md R28). -/
def blksizeWord : Word := 16#32

/-- The window word whose lowest byte is `BUF[k]` (R54, R57). -/
def windowWord (m : Memory) (k : Nat) : Word := le32 (m.read k) (m.read (k + 1)) (m.read (k + 2)) (m.read (k + 3))

/-- `rsp_rdata` of a read that is no bus error (R54); a port with nothing to read gives 0, which no such read meets. -/
def readData (s : State) : Port → Word
  | .status => statusWord s
  | .errinfo => s.errinfo
  | .blksize => blksizeWord
  | .window k => windowWord s.buf k
  | .cmd => 0#32
  | .unmapped => 0#32

/-- The write of the word `c` to `CMD`: the command it encodes is executed (spec/30_encoding.md R97), or it is illegal
(spec/60_exceptions.md R234). -/
def commandWrite (c : Word) (s : State) : Host.Outcome State Fault Refusal :=
  match decode c with
  | .ok i => exec i s
  | .error _ => .next (raiseIllegal c s)

/-- What a write that is no bus error does, its response left out (R55); a port that cannot be written is left as it
is, and no such write meets one. -/
def writeEffect (data : Word) (s : State) : Port → Host.Outcome State Fault Refusal
  | .cmd => commandWrite data s
  | .window k => .next (storeBytes k (st32 data) s)
  | .status => .next s
  | .errinfo => .next s
  | .blksize => .next s
  | .unmapped => .next s

/-- The response comes when the effects are in place (R52). -/
def thenRespond (r : Response) : Host.Outcome State Fault Refusal → Host.Outcome State Fault Refusal
  | .next s => .next (respond r s)
  | .fault f => .fault f
  | .refused f => .refused f

/-- One accepted transaction, a single indivisible step (R53): a bus error is decided from the address and the
direction alone (spec/60_exceptions.md R235) and changes nothing (R56); otherwise R54 or R55. -/
def transact (r : Request) (s : State) : Host.Outcome State Fault Refusal :=
  if busError r then .next (respond errorResponse s)
  else match r with
    | .read addr => .next (respond { err := false, rdata := readData s (portAt addr) } s)
    | .write addr data => thenRespond writeResponse (writeEffect data s (portAt addr))

/-- One event of the host's side (log 1): a transaction, or a reset, which gives no response (spec/70_reset_and_hazards.md
R270). -/
def applyEvent (e : HostEvent) (s : State) : Host.Outcome State Fault Refusal :=
  match e with
  | .request r => transact r s
  | .reset _ => .next (resetEngine s)

/-- One step: the oldest event still to come is taken and applied; with none, the engine is idle with its state held
(spec/60_exceptions.md R248). -/
def nextEvent (s : State) : Host.Outcome State Fault Refusal :=
  match s.pending with
  | [] => .next s
  | e :: rest => applyEvent e { s with pending := rest }

/-- The host writes the command word `c` to `CMD` next, before everything else it still has to do. -/
def placeCommand (c : Word) (s : State) : State :=
  { s with pending := .request (.write 0x000#9 c) :: s.pending }

end Sys2Proof.Machine
end

