-- ==== Sys2Proof/Machine/Step.lean ====
section
/-! DEFINITION. The step function (spec/00_scope.md R7): one host transaction, or a reset, per step. -/

namespace Sys2Proof.Machine

/-- One step of the machine. -/
def step (s : State) : Host.Outcome State Fault Refusal := nextEvent s

/-- `s` with the command word of a table row placed where the step takes its next command: as the data of a write to
`CMD`, the host's next transaction. Nothing else changes. -/
def State.withFetchWord (s : State) (nbits w : Nat) : State := placeCommand (tableWord nbits w) s

end Sys2Proof.Machine
end

