-- ==== Sys2Proof/Machine/Assembler.lean ====
section
/-! DEFINITION. The spec's textual syntax for host programs (spec/30_encoding.md R98) and its pseudo-instructions (R99),
as the transactions each stands for. None adds behaviour: a program is the list of its transactions, given to the
machine as `pending`. -/

namespace Sys2Proof.Machine

/-- A statement of a host program (R98, R99), comments and spelling left out. -/
inductive Asm where
  /-- `KSCHED koff, klen`, `ENC dst, src`, `DEC dst, src`, `CLR`. -/
  | command (i : Instr)
  /-- `WR addr, data`. -/
  | wr (addr : BitVec 9) (data : Word)
  /-- `RD addr`. -/
  | rd (addr : BitVec 9)
  /-- `BLKSZ`. -/
  | blksz
  /-- `STAT`. -/
  | stat
  /-- `EINFO`. -/
  | einfo
  /-- `NEW koff`. -/
  | new (koff : Nat)
  /-- `ENCIP off`. -/
  | encip (off : Nat)
  /-- `DECIP off`. -/
  | decip (off : Nat)
  /-- `PUT off, b0 b1 …`. -/
  | put (off : Nat) (bytes : List Byte)
  /-- `GET off, m`. -/
  | get (off m : Nat)
  deriving DecidableEq, Repr

/-- The address of the window word whose lowest byte is `BUF[k]` (spec/20_memory.md R50). -/
def windowAddr (k : Nat) : BitVec 9 := BitVec.ofNat 9 (0x100 + k)

/-- The write of a command to `CMD` (R98); none where no command word spells the operands (R100, U10). -/
def commandRequest (i : Instr) : Option (List Request) :=
  if i.wellFormed then some [.write 0x000#9 (encode i)] else none

/-- The writes of `PUT` from offset `off` on (R99). -/
def putRequests : Nat → List Byte → List Request
  | off, b0 :: b1 :: b2 :: b3 :: bytes => .write (windowAddr off) (le32 b0 b1 b2 b3) :: putRequests (off + 4) bytes
  | _, _ => []

/-- The reads of `GET` from offset `off` on (R99). -/
def getRequests (off : Nat) : Nat → List Request
  | 0 => []
  | m + 1 => .read (windowAddr off) :: getRequests (off + 4) m

/-- The transactions a statement stands for (R98, R99); none where it has no expansion: operands that no command word
spells, `PUT` and `GET` at an offset that is not a multiple of 4 or past the end of BUF, a `PUT` of bytes that are not
whole words. -/
def Asm.expand : Asm → Option (List Request)
  | .command i => commandRequest i
  | .wr addr data => some [.write addr data]
  | .rd addr => some [.read addr]
  | .blksz => some [.read 0x00C#9]
  | .stat => some [.read 0x004#9]
  | .einfo => some [.read 0x008#9]
  | .new koff => commandRequest (.ksched koff Config.keyBytes)
  | .encip off => commandRequest (.enc off off)
  | .decip off => commandRequest (.dec off off)
  | .put off bytes =>
    if off % 4 = 0 ∧ bytes.length % 4 = 0 ∧ off + bytes.length ≤ Config.bufBytes then some (putRequests off bytes)
    else none
  | .get off m => if off % 4 = 0 ∧ off + 4 * m ≤ Config.bufBytes then some (getRequests off m) else none

/-- The transactions of a program, in order. -/
def assemble : List Asm → Option (List Request)
  | [] => some []
  | a :: as =>
    match a.expand, assemble as with
    | some rs, some rest => some (rs ++ rest)
    | _, _ => none

end Sys2Proof.Machine
end

