-- ==== Sys2Proof/Safety.lean ====
section
/-! DEFINITION. What claims about runs are stated in: when a step goes on, the one hazard that stops it, and the
invariant of the reachable states. -/

namespace Sys2Proof.Machine

/-- The step answers a next state. -/
def Continues (s : State) : Prop := ∃ t, step s = .next t

/-- `n` steps answer a next state. -/
def SafeRun (n : Nat) (s : State) : Prop := ∃ t, Host.Core.run Sys2Proof.core n s = .next t

/-- Hazard H-3 of spec/70_reset_and_hazards.md R273: the next event writes an ENC or a DEC to `CMD` whose checks all
pass and whose regions overlap partially. -/
def HazardH3 (s : State) : Prop :=
  ∃ c dst src rest, s.pending = .request (.write 0x000#9 c) :: rest ∧
    (decode c = .ok (.enc dst src) ∨ decode c = .ok (.dec dst src)) ∧
    s.rkValid = true ∧ inRange src ∧ inRange dst ∧ partialOverlap dst src

/-- The content invariant of RK (spec/10_state.md R39). -/
def CipherInv (s : State) : Prop :=
  (s.rkValid = true → ∃ key : Bytes16, s.rk = keyExpand key) ∧
  (s.rkValid = false → s.rk = Vector.replicate 44 0#32)

/-- `ERR` and `ERRINFO` report an outcome that a command can have (spec/60_exceptions.md R230). -/
def ReportInv (s : State) : Prop :=
  (s.err = codeNone ∧ s.errinfo = 0#32) ∨
  (s.err = ErrorKind.invalidKeySize.code ∧ s.errinfo.toNat < 65536 ∧ s.errinfo.toNat ≠ 16) ∨
  (s.err = ErrorKind.noKey.code ∧ s.errinfo = 0#32) ∨
  (s.err = ErrorKind.bufRange.code ∧ 240 < s.errinfo.toNat ∧ s.errinfo.toNat < 256) ∨
  (s.err = ErrorKind.illegalCmd.code ∧ ∃ why, decode s.errinfo = .error why)

/-- The invariant that every step keeps. -/
structure Inv (s : State) : Prop where
  /-- BUF is in its canonical form. -/
  buf : s.buf.wf = true
  cipher : CipherInv s
  report : ReportInv s

end Sys2Proof.Machine
end

