-- ==== Sys2Proof/Certificates/Slice0/Obligations.lean ====
section
/-! DEFINITION. The statements about the RC6 engine, one `def Obligations.<Name> : Prop` each, and the words they are
said in. -/

namespace Sys2Proof.Claims

open Sys2Proof Sys2Proof.Machine

/-- The next event writes a word that encodes the command `i` to `CMD`. -/
def Runs (s : State) (i : Instr) : Prop :=
  ∃ c rest, s.pending = .request (.write 0x000#9 c) :: rest ∧ decode c = .ok i

/-- The next event is a reset. -/
def Resets (s : State) : Prop := ∃ a rest, s.pending = .reset a :: rest

/-- The four conditions of spec/20_memory.md R56, in numbers. -/
def isBusError : Request → Bool
  | .read a => a.toNat % 4 != 0 || (0x010 ≤ a.toNat && a.toNat ≤ 0x0FF) || a.toNat == 0x000
  | .write a _ =>
    a.toNat % 4 != 0 || (0x010 ≤ a.toNat && a.toNat ≤ 0x0FF) || a.toNat == 0x004 || a.toNat == 0x008 || a.toNat == 0x00C

/-- `ERR` and `ERRINFO` after the write of `c` to `CMD`, by the table of spec/60_exceptions.md R230 and the order of
checks of R235; `valid` is `RK_VALID` before it. -/
def report (c : Word) (valid : Bool) : BitVec 4 × Word :=
  match decode c with
  | .error _ => (4#4, c)
  | .ok (.ksched koff klen) =>
    if klen ≠ 16 then (1#4, BitVec.ofNat 32 klen)
    else if 240 < koff then (3#4, BitVec.ofNat 32 koff)
    else (0#4, 0#32)
  | .ok (.enc dst src) =>
    if valid = false then (2#4, 0#32)
    else if 240 < src then (3#4, BitVec.ofNat 32 src)
    else if 240 < dst then (3#4, BitVec.ofNat 32 dst)
    else (0#4, 0#32)
  | .ok (.dec dst src) =>
    if valid = false then (2#4, 0#32)
    else if 240 < src then (3#4, BitVec.ofNat 32 src)
    else if 240 < dst then (3#4, BitVec.ofNat 32 dst)
    else (0#4, 0#32)
  | .ok .clr => (0#4, 0#32)

/-- The checks of a block command in their order, and its effect once they pass: what spec/42_encrypt.md R171 and
spec/43_decrypt.md R191 say, with `cmd` the command and `f` its block function. -/
def BlockCommand (cmd : Nat → Nat → Instr) (f : RoundKeys → Bytes16 → Bytes16) : Prop :=
  ∀ (s : State) (dst src : Nat),
    (s.rkValid = false → exec (cmd dst src) s = .next { s with err := 2#4, errinfo := 0#32 }) ∧
    (s.rkValid = true → 240 < src →
      exec (cmd dst src) s = .next { s with err := 3#4, errinfo := BitVec.ofNat 32 src }) ∧
    (s.rkValid = true → src ≤ 240 → 240 < dst →
      exec (cmd dst src) s = .next { s with err := 3#4, errinfo := BitVec.ofNat 32 dst }) ∧
    (s.rkValid = true → src ≤ 240 → dst ≤ 240 → dst ≠ src → dst < src + 16 → src < dst + 16 →
      ∃ r, exec (cmd dst src) s = .refused r) ∧
    (s.buf.wf = true → s.rkValid = true → src ≤ 240 → dst ≤ 240 → (dst = src ∨ src + 16 ≤ dst ∨ dst + 16 ≤ src) →
      ∀ p : Bytes16, (∀ (j : Nat) (hj : j < 16), s.buf.read (src + j) = p[j]) →
        ∃ t, exec (cmd dst src) s = .next t ∧
          (∀ (j : Nat) (hj : j < 16), t.buf.read (dst + j) = (f s.rk p)[j]) ∧
          (∀ a, a < dst ∨ dst + 16 ≤ a → t.buf.read a = s.buf.read a) ∧
          t.rk = s.rk ∧ t.rkValid = s.rkValid ∧ t.err = 0#4 ∧ t.errinfo = 0#32 ∧
          t.pending = s.pending ∧ t.responses = s.responses)

/-- The two states agree on the five elements of spec/10_state.md R20. -/
def SameEngine (s s' : State) : Prop :=
  s.rk = s'.rk ∧ s.rkValid = s'.rkValid ∧ s.err = s'.err ∧ s.errinfo = s'.errinfo ∧ s.buf = s'.buf

/-- The requests among the host's events, in order. -/
def requestsOf : List HostEvent → List Request
  | [] => []
  | .request r :: es => r :: requestsOf es
  | .reset _ :: es => requestsOf es

end Sys2Proof.Claims

open Sys2Proof Sys2Proof.Machine Sys2Proof.Claims

/-! ### Encoding -/

/-- Sample words, each written out from the field tables of R91. -/
def Obligations.SampleWordsDecodeToTheirCommands : Prop :=
  decode 0b0000000000010000_00000011_0000_0001#32 = .ok (.ksched 3 16) ∧
  decode 0b00000000_01010000_01000000_0000_0010#32 = .ok (.enc 80 64) ∧
  decode 0b00000000_00100000_00010000_0000_0011#32 = .ok (.dec 32 16) ∧
  decode 0b0000000000000000000000000000_0100#32 = .ok .clr

/-- R100: every command, with every operand its fields admit, is decoded back from its word. -/
def Obligations.DecodeUndoesEncode : Prop := ∀ i : Instr, i.WellFormed → decode (encode i) = .ok i

/-- R100: every word that is not illegal is the encoding of the well-formed command it decodes to. -/
def Obligations.EncodeUndoesDecode : Prop := ∀ (c : Word) (i : Instr), decode c = .ok i → i.WellFormed ∧ encode i = c

/-- R97 by match and mask, with the operands of R93; R96: a word is one of the four commands or illegal. -/
def Obligations.DecodingIsByMatchAndMask : Prop :=
  ∀ c : Word,
    (c &&& 0x000000FF#32 = 0x00000001#32 → decode c = .ok (.ksched (c.toNat / 2 ^ 8 % 2 ^ 8) (c.toNat / 2 ^ 16))) ∧
    (c &&& 0xFF0000FF#32 = 0x00000002#32 → decode c = .ok (.enc (c.toNat / 2 ^ 16) (c.toNat / 2 ^ 8 % 2 ^ 8))) ∧
    (c &&& 0xFF0000FF#32 = 0x00000003#32 → decode c = .ok (.dec (c.toNat / 2 ^ 16) (c.toNat / 2 ^ 8 % 2 ^ 8))) ∧
    (c = 0x00000004#32 → decode c = .ok .clr) ∧
    (c &&& 0x000000FF#32 ≠ 0x00000001#32 → c &&& 0xFF0000FF#32 ≠ 0x00000002#32 →
      c &&& 0xFF0000FF#32 ≠ 0x00000003#32 → c ≠ 0x00000004#32 → ∃ why, decode c = .error why)

/-- R94, R95 and R234: a reserved opcode, or a 1 in a must-be-zero field, raises `ILLEGAL_CMD` and does nothing else. -/
def Obligations.IllegalWordsRaiseIllegalCmd : Prop :=
  ∀ (s : State) (c : Word) (rest : List HostEvent), s.pending = .request (.write 0x000#9 c) :: rest →
    ((c.toNat % 16 = 0 ∨ 5 ≤ c.toNat % 16) ∨
      (c.toNat % 16 = 1 ∧ c.toNat / 2 ^ 4 % 16 ≠ 0) ∨
      ((c.toNat % 16 = 2 ∨ c.toNat % 16 = 3) ∧ (c.toNat / 2 ^ 4 % 16 ≠ 0 ∨ c.toNat / 2 ^ 24 ≠ 0)) ∨
      (c.toNat % 16 = 4 ∧ c.toNat / 2 ^ 4 ≠ 0)) →
    (∃ why, decode c = .error why) ∧
    step s = .next { s with
      err := 4#4, errinfo := c, pending := rest, responses := s.responses ++ [{ err := false, rdata := 0#32 }] }

/-! ### Arithmetic -/

/-- R121, R122, R123: addition, subtraction and multiplication are modulo 2³². -/
def Obligations.ArithmeticIsModulo : Prop :=
  ∀ a b : Word,
    (add32 a b).toNat = (a.toNat + b.toNat) % 2 ^ 32 ∧
    ((sub32 a b).toNat : Int) = ((a.toNat : Int) - (b.toNat : Int)) % 2 ^ 32 ∧
    (mul32 a b).toNat = (a.toNat * b.toNat) % 2 ^ 32

/-- R124: a bit of the exclusive or is 1 exactly when the two bits differ, and the operation undoes itself. R124's
bit-level meaning is general knowledge (G2), not the source's: log 11, PRESUMED. -/
def Obligations.XorSetsTheBitsThatDiffer : Prop :=
  ∀ a b : Word,
    (∀ i, i < 32 → ((xor32 a b).getLsbD i = true ↔ a.getLsbD i ≠ b.getLsbD i)) ∧ xor32 (xor32 a b) b = a

/-- R125, R126: the rotations bit by bit and by their formulas, general knowledge (G1): log 11, PRESUMED. -/
def Obligations.RotationsMoveEveryBit : Prop :=
  ∀ (x : Word) (n : Nat), n < 32 →
    (∀ i, i < 32 → (rotl32 x n).getLsbD ((i + n) % 32) = x.getLsbD i) ∧
    (∀ i, i < 32 → (rotr32 x n).getLsbD ((i + 32 - n) % 32) = x.getLsbD i) ∧
    (rotl32 x n).toNat = (x.toNat * 2 ^ n) % 2 ^ 32 + x.toNat / 2 ^ (32 - n) ∧
    (1 ≤ n → (rotr32 x n).toNat = x.toNat / 2 ^ n + (x.toNat * 2 ^ (32 - n)) % 2 ^ 32) ∧
    rotr32 x 0 = x

/-- R126: the two rotations undo each other, and a right rotation is a left one by the complement. What the rotations are
is general knowledge (G1): log 11, PRESUMED. -/
def Obligations.RotationsUndoEachOther : Prop :=
  ∀ (x : Word) (n : Nat), n < 32 →
    rotr32 (rotl32 x n) n = x ∧ rotl32 (rotr32 x n) n = x ∧ rotr32 x n = rotl32 x ((32 - n) % 32)

/-- R129 and R127: the quadratic function modulo 2³², `G` as its rotation by 5, and a count that ignores all but the low
five bits. The clause on `G` writes out R125's formula for a count of 5, which is general knowledge (G1), not the
source's: log 11, PRESUMED. -/
def Obligations.QuadraticFunctionAndMaskedCount : Prop :=
  ∀ x : Word,
    (quad x).toNat = (x.toNat * (2 * x.toNat + 1)) % 2 ^ 32 ∧
    (G x).toNat = ((quad x).toNat * 32) % 2 ^ 32 + (quad x).toNat / 2 ^ 27 ∧
    rotCount x = (x &&& 31#32).toNat

/-! ### Layouts and the constant table -/

/-- R58, R59: words and bytes, least significant byte first; R60: the words A, B, C, D of a block from its bytes 0..3,
4..7, 8..11 and 12..15, its bytes from the words in that order, and the two directions undo each other. The meaning of
little-endian is general knowledge (G3) and the place of each word a reading (D23): log 11, PRESUMED. -/
def Obligations.BlocksAreLittleEndian : Prop :=
  (∀ b0 b1 b2 b3 : Byte,
    (le32 b0 b1 b2 b3).toNat = b0.toNat + 2 ^ 8 * b1.toNat + 2 ^ 16 * b2.toNat + 2 ^ 24 * b3.toNat) ∧
  (∀ (w : Word) (j : Nat) (hj : j < 4), (st32 w)[j].toNat = w.toNat / 2 ^ (8 * j) % 2 ^ 8) ∧
  (∀ p : Bytes16,
    (quadOfBytes p).a = le32 p[0] p[1] p[2] p[3] ∧
    (quadOfBytes p).b = le32 p[4] p[5] p[6] p[7] ∧
    (quadOfBytes p).c = le32 p[8] p[9] p[10] p[11] ∧
    (quadOfBytes p).d = le32 p[12] p[13] p[14] p[15]) ∧
  (∀ q : Quad,
    (bytesOfQuad q).toList = (st32 q.a).toList ++ (st32 q.b).toList ++ (st32 q.c).toList ++ (st32 q.d).toList) ∧
  (∀ q : Quad, quadOfBytes (bytesOfQuad q) = q) ∧
  (∀ p : Bytes16, bytesOfQuad (quadOfBytes p) = p)

/-- R31: the recurrence, and its closed form. -/
def Obligations.StaticTableIsTheLinearRecurrence : Prop :=
  S0[0] = 0xB7E15163#32 ∧
  (∀ (i : Nat) (hi : i + 1 < 44), S0[i + 1] = add32 S0[i] 0x9E3779B9#32) ∧
  (∀ (i : Nat) (hi : i < 44), S0[i].toNat = (0xB7E15163 + i * 0x9E3779B9) % 2 ^ 32)

/-! ### The key schedule -/

/-- R152: the four decoded key words, the copy of S0 and the 132 mixing iterations, as sequences of the working
registers; the array after the last iteration is `KeyExpand(key)`. -/
def Obligations.KeyExpandRunsTheMixingIterations : Prop :=
  ∀ key : Bytes16, ∃ (S : Nat → RoundKeys) (L : Nat → Vector Word 4) (KA KB : Nat → Word),
    S 0 = S0 ∧ KA 0 = 0#32 ∧ KB 0 = 0#32 ∧
    (∀ (n : Nat) (hn : n < 4),
      (L 0)[n] = le32 key[4 * n] key[4 * n + 1] key[4 * n + 2] key[4 * n + 3]) ∧
    (∀ k, k < 132 → ∀ (i j : Nat) (hi : i < 44) (hj : j < 4), i = k % 44 → j = k % 4 →
      KA (k + 1) = rotl32 (add32 (add32 (S k)[i] (KA k)) (KB k)) 3 ∧
      KB (k + 1) = rotl32 (add32 (L k)[j] (add32 (KA (k + 1)) (KB k))) ((add32 (KA (k + 1)) (KB k)).toNat % 32) ∧
      S (k + 1) = (S k).set i (KA (k + 1)) ∧
      L (k + 1) = (L k).set j (KB (k + 1))) ∧
    keyExpand key = S 132

/-- R151, R153, R154: the checks of KSCHED in their order and, with the one valid length and an offset in range, the new
Cipher from the 16 bytes at `koff`; every other element of the state is as it was. -/
def Obligations.KschedChecksAndEffect : Prop :=
  ∀ (s : State) (koff klen : Nat),
    (klen ≠ 16 → exec (.ksched koff klen) s = .next { s with err := 1#4, errinfo := BitVec.ofNat 32 klen }) ∧
    (klen = 16 → 240 < koff →
      exec (.ksched koff klen) s = .next { s with err := 3#4, errinfo := BitVec.ofNat 32 koff }) ∧
    (klen = 16 → koff ≤ 240 → ∀ key : Bytes16, (∀ (j : Nat) (hj : j < 16), s.buf.read (koff + j) = key[j]) →
      exec (.ksched koff klen) s =
        .next { s with rk := keyExpand key, rkValid := true, err := 0#4, errinfo := 0#32 })

/-- R231: KSCHED reports `INVALID_KEY_SIZE` exactly when `klen ≠ 16`, with the length, and touches nothing else. -/
def Obligations.InvalidKeySizeExactlyWhenNot16 : Prop :=
  ∀ (s : State) (koff klen : Nat), ∃ t, exec (.ksched koff klen) s = .next t ∧
    (t.err = 1#4 ↔ klen ≠ 16) ∧
    (klen ≠ 16 → t.errinfo = BitVec.ofNat 32 klen ∧ t.rk = s.rk ∧ t.rkValid = s.rkValid ∧ t.buf = s.buf)

/-! ### The block commands -/

/-- R172 and R173: the whitening, the 20 rounds in ascending order with the round keys `RK[2i]` and `RK[2i+1]`, and the
layout of the output, as sequences of the working registers. -/
def Obligations.EncBlockRunsTheRounds : Prop :=
  ∀ (rk : RoundKeys) (p : Bytes16), ∃ A B C D : Nat → Word,
    A 0 = le32 p[0] p[1] p[2] p[3] ∧
    B 0 = add32 (le32 p[4] p[5] p[6] p[7]) rk[0] ∧
    C 0 = le32 p[8] p[9] p[10] p[11] ∧
    D 0 = add32 (le32 p[12] p[13] p[14] p[15]) rk[1] ∧
    (∀ (i : Nat) (hi : i < 20),
      let t := rotl32 (mul32 (B i) (add32 (add32 (B i) (B i)) 1#32)) 5
      let u := rotl32 (mul32 (D i) (add32 (add32 (D i) (D i)) 1#32)) 5
      A (i + 1) = B i ∧
      B (i + 1) = add32 (rotl32 (xor32 (C i) u) (t.toNat % 32)) rk[2 * (i + 1) + 1] ∧
      C (i + 1) = D i ∧
      D (i + 1) = add32 (rotl32 (xor32 (A i) t) (u.toNat % 32)) rk[2 * (i + 1)]) ∧
    (encBlock rk p).toList =
      (st32 (add32 (A 20) rk[42])).toList ++ (st32 (B 20)).toList ++ (st32 (add32 (C 20) rk[43])).toList ++
        (st32 (D 20)).toList

/-- R192: the steps of decryption, with the rounds in descending order (`A (20 - i)` stands before backward round
`20 - i`). -/
def Obligations.DecBlockRunsTheRoundsBackwards : Prop :=
  ∀ (rk : RoundKeys) (q : Bytes16), ∃ A B C D : Nat → Word,
    A 20 = sub32 (le32 q[0] q[1] q[2] q[3]) rk[42] ∧
    B 20 = le32 q[4] q[5] q[6] q[7] ∧
    C 20 = sub32 (le32 q[8] q[9] q[10] q[11]) rk[43] ∧
    D 20 = le32 q[12] q[13] q[14] q[15] ∧
    (∀ (i : Nat) (hi : i < 20),
      let u := rotl32 (mul32 (C (i + 1)) (add32 (add32 (C (i + 1)) (C (i + 1))) 1#32)) 5
      let t := rotl32 (mul32 (A (i + 1)) (add32 (add32 (A (i + 1)) (A (i + 1))) 1#32)) 5
      A i = xor32 (rotr32 (sub32 (D (i + 1)) rk[2 * (i + 1)]) (u.toNat % 32)) t ∧
      B i = A (i + 1) ∧
      C i = xor32 (rotr32 (sub32 (B (i + 1)) rk[2 * (i + 1) + 1]) (t.toNat % 32)) u ∧
      D i = C (i + 1)) ∧
    (decBlock rk q).toList =
      (st32 (A 0)).toList ++ (st32 (sub32 (B 0) rk[0])).toList ++ (st32 (C 0)).toList ++
        (st32 (sub32 (D 0) rk[1])).toList

/-- R171: ENC. -/
def Obligations.EncChecksAndEffect : Prop := BlockCommand .enc encBlock

/-- R191: DEC. -/
def Obligations.DecChecksAndEffect : Prop := BlockCommand .dec decBlock

/-- R232: ENC and DEC report `NO_KEY` exactly when `RK_VALID = 0`, whatever the offsets. -/
def Obligations.NoKeyExactlyWhenNoCipher : Prop :=
  ∀ (s : State) (dst src : Nat) (i : Instr), i = .enc dst src ∨ i = .dec dst src →
    (s.rkValid = false → exec i s = .next { s with err := 2#4, errinfo := 0#32 }) ∧
    (∀ t, exec i s = .next t → t.err = 2#4 → s.rkValid = false)

/-- R66: with every earlier check passed, a partial overlap has no meaning and is refused (by the name of log 5), and
nothing else is. -/
def Obligations.PartialOverlapIsTheOnlyRefusal : Prop :=
  ∀ (s : State) (i : Instr) (r : Refusal), exec i s = .refused r ↔
    ∃ dst src, (i = .enc dst src ∨ i = .dec dst src) ∧ r = .partialOverlap dst src ∧
      s.rkValid = true ∧ src ≤ 240 ∧ dst ≤ 240 ∧ dst ≠ src ∧ dst < src + 16 ∧ src < dst + 16

/-- R65: an in-place command gives the output bytes that disjoint buffers give, and disjoint buffers leave the source
bytes unchanged; for ENC and for DEC. -/
def Obligations.InPlaceGivesTheDisjointOutput : Prop :=
  ∀ (s : State) (dst src : Nat) (cmd : Nat → Nat → Instr), cmd = .enc ∨ cmd = .dec →
    s.buf.wf = true → s.rkValid = true → src ≤ 240 → dst ≤ 240 → (src + 16 ≤ dst ∨ dst + 16 ≤ src) →
      ∃ t u, exec (cmd dst src) s = .next t ∧ exec (cmd src src) s = .next u ∧
        ∀ j, j < 16 → t.buf.read (src + j) = s.buf.read (src + j) ∧ u.buf.read (src + j) = t.buf.read (dst + j)

/-- R194: for every array of 44 words and every block the two block functions undo each other, and so do the in-place
commands: BUF is again what it was. -/
def Obligations.DecryptUndoesEncrypt : Prop :=
  (∀ (rk : RoundKeys) (p : Bytes16), decBlock rk (encBlock rk p) = p ∧ encBlock rk (decBlock rk p) = p) ∧
  (∀ (s : State) (x : Nat), s.buf.wf = true → s.rkValid = true → x ≤ 240 →
    (∃ t u, exec (.enc x x) s = .next t ∧ exec (.dec x x) t = .next u ∧ u.buf = s.buf) ∧
    (∃ t u, exec (.dec x x) s = .next t ∧ exec (.enc x x) t = .next u ∧ u.buf = s.buf))

/-! ### CLR, errors and the report -/

/-- R210: CLR zeroes RK, clears `RK_VALID`, `ERR` and `ERRINFO`, changes nothing else, is idempotent, and makes ENC and DEC
raise `NO_KEY` as long as no KSCHED succeeds: `RK_VALID` stays 0 on every other step. -/
def Obligations.ClrDiscardsTheCipher : Prop :=
  (∀ s : State,
    exec .clr s =
      .next { s with rk := Vector.replicate 44 0#32, rkValid := false, err := 0#4, errinfo := 0#32 }) ∧
  (∀ s t : State, exec .clr s = .next t → exec .clr t = .next t) ∧
  (∀ s t : State, s.rkValid = false → step s = .next t →
    (¬ ∃ koff, koff ≤ 240 ∧ Runs s (.ksched koff 16)) → t.rkValid = false) ∧
  (∀ (s : State) (dst src : Nat), s.rkValid = false →
    exec (.enc dst src) s = .next { s with err := 2#4, errinfo := 0#32 } ∧
    exec (.dec dst src) s = .next { s with err := 2#4, errinfo := 0#32 })

/-- R236: a command that ends in an error has written the error's code and information to `ERR` and `ERRINFO`, has
changed nothing else of the engine, and its write is answered with `rsp_err = 0`. -/
def Obligations.ErrorsHaveNoPartialEffect : Prop :=
  ∀ (s t : State) (c : Word) (rest : List HostEvent), s.pending = .request (.write 0x000#9 c) :: rest →
    step s = .next t → t.err ≠ 0#4 →
      t = { s with
        err := (report c s.rkValid).1, errinfo := (report c s.rkValid).2, pending := rest
        responses := s.responses ++ [{ err := false, rdata := 0#32 }] }

/-- R24, R25, R230, R235: every command overwrites `ERR` and `ERRINFO` with the first failing check's code and
information, or with 0; no other transaction touches them. -/
def Obligations.EveryCommandReportsItsOutcome : Prop :=
  ∀ (s t : State) (r : Request) (rest : List HostEvent), s.pending = .request r :: rest → step s = .next t →
    (∀ c, r = .write 0x000#9 c → (t.err, t.errinfo) = report c s.rkValid) ∧
    ((∀ c, r ≠ .write 0x000#9 c) → t.err = s.err ∧ t.errinfo = s.errinfo)

/-- R237: a command executes as if no earlier one had failed. -/
def Obligations.EarlierReportsDoNotMatter : Prop :=
  ∀ (s : State) (i : Instr) (e : BitVec 4) (info : Word), exec i { s with err := e, errinfo := info } = exec i s

/-! ### The port -/

/-- R97, R55: the write of a word that encodes a command runs the command and then answers the write. -/
def Obligations.StepRunsTheDecodedCommand : Prop :=
  ∀ (s : State) (c : Word) (i : Instr) (rest : List HostEvent),
    s.pending = .request (.write 0x000#9 c) :: rest → decode c = .ok i →
    (∀ t, exec i { s with pending := rest } = .next t →
      step s = .next { t with responses := t.responses ++ [{ err := false, rdata := 0#32 }] }) ∧
    (∀ r, exec i { s with pending := rest } = .refused r → step s = .refused r)

/-- The model's convention for placing a command word (log 3): the next step runs the row's command on the state as it
was, and then answers the write. -/
def Obligations.PlacedWordRunsAtTheNextStep : Prop :=
  ∀ (s : State) (nbits w : Nat) (i : Instr), decodeTableWord nbits w = some i →
    (∀ t, exec i s = .next t →
      step (s.withFetchWord nbits w) = .next { t with responses := t.responses ++ [{ err := false, rdata := 0#32 }] }) ∧
    (∀ r, exec i s = .refused r → step (s.withFetchWord nbits w) = .refused r)

/-- R56, R239: a misaligned, unmapped or forbidden access is answered with `rsp_err = 1` and changes no element of the
engine; no other transaction is answered so. -/
def Obligations.BusErrorsChangeNothing : Prop :=
  ∀ (s : State) (r : Request) (rest : List HostEvent), s.pending = .request r :: rest →
    (isBusError r = true → step s = .next { s with
      pending := rest, responses := s.responses ++ [{ err := true, rdata := 0#32 }] }) ∧
    (isBusError r = false → ∀ t, step s = .next t →
      ∃ v, t.responses = s.responses ++ [{ err := false, rdata := v }])

/-- R54, with R26, R27, R28, R57: what each readable address answers; no read changes the engine. -/
def Obligations.ReadsAnswerTheAddressMap : Prop :=
  ∀ (s : State) (addr : BitVec 9) (rest : List HostEvent), s.pending = .request (.read addr) :: rest →
    ∃ resp : Response,
      step s = .next { s with pending := rest, responses := s.responses ++ [resp] } ∧
      (isBusError (.read addr) = true → resp.err = true ∧ resp.rdata = 0#32) ∧
      (isBusError (.read addr) = false → resp.err = false) ∧
      (addr.toNat = 0x004 → resp.rdata.toNat = 16 * s.err.toNat + s.rkValid.toNat) ∧
      (addr.toNat = 0x008 → resp.rdata = s.errinfo) ∧
      (addr.toNat = 0x00C → resp.rdata.toNat = 16) ∧
      (∀ n, addr.toNat = 0x100 + 4 * n →
        resp.rdata = le32 (s.buf.read (4 * n)) (s.buf.read (4 * n + 1)) (s.buf.read (4 * n + 2))
          (s.buf.read (4 * n + 3)))

/-- R211: `BLKSZ` is the read of 0x00C and answers 16 in every state. -/
def Obligations.BlockSizeIsAlways16 : Prop :=
  Asm.expand .blksz = some [.read 0x00C#9] ∧
  ∀ (s : State) (rest : List HostEvent), s.pending = .request (.read 0x00C#9) :: rest →
    step s = .next { s with pending := rest, responses := s.responses ++ [{ err := false, rdata := 16#32 }] }

/-- R55, R57: a write to the BUF window stores the four bytes of the word, least significant byte first, and changes
nothing else of the engine. -/
def Obligations.WindowWritesStoreFourBytes : Prop :=
  ∀ (s : State) (n : Nat) (addr : BitVec 9) (data : Word) (rest : List HostEvent),
    s.pending = .request (.write addr data) :: rest → addr.toNat = 0x100 + 4 * n → s.buf.wf = true →
      ∃ t, step s = .next t ∧
        (∀ j, j < 4 → (t.buf.read (4 * n + j)).toNat = data.toNat / 2 ^ (8 * j) % 2 ^ 8) ∧
        (∀ a, a < 4 * n ∨ 4 * n + 4 ≤ a → t.buf.read a = s.buf.read a) ∧
        t.rk = s.rk ∧ t.rkValid = s.rkValid ∧ t.err = s.err ∧ t.errinfo = s.errinfo ∧ t.pending = rest ∧
        t.responses = s.responses ++ [{ err := false, rdata := 0#32 }]

/-- R270: a reset puts every element of the engine at its reset value and gives no response, whatever request it
abandons. -/
def Obligations.ResetZeroesTheEngine : Prop :=
  ∀ (s : State) (a : Option Request) (rest : List HostEvent), s.pending = .reset a :: rest →
    ∃ t, step s = .next t ∧ (∀ (i : Nat) (hi : i < 44), t.rk[i] = 0#32) ∧ t.rkValid = false ∧ t.err = 0#4 ∧
      t.errinfo = 0#32 ∧ (∀ k, t.buf.read k = 0#8) ∧ SameEngine t State.reset ∧ t.pending = rest ∧
      t.responses = s.responses

/-! ### Whole-machine rules -/

/-- R22, R21: `RK_VALID` becomes 1 on a successful KSCHED and 0 on CLR and on reset; otherwise it and RK stay as they
are; with it 0, ENC and DEC do not run. -/
def Obligations.OnlyKschedClrAndResetTouchTheCipher : Prop :=
  ∀ s t : State, step s = .next t →
    (∀ koff, koff ≤ 240 → Runs s (.ksched koff 16) → t.rkValid = true) ∧
    (Runs s .clr → t.rkValid = false) ∧
    (Resets s → t.rkValid = false) ∧
    ((¬ ∃ koff, koff ≤ 240 ∧ Runs s (.ksched koff 16)) → ¬ Runs s .clr → ¬ Resets s →
      t.rkValid = s.rkValid ∧ t.rk = s.rk) ∧
    (∀ dst src, s.rkValid = false → (Runs s (.enc dst src) ∨ Runs s (.dec dst src)) → t.err = 2#4 ∧ t.buf = s.buf)

/-- R30, R64: a byte of BUF changes only by a reset, by a host write to the word that holds it, or as one of the 16
destination bytes of an ENC or DEC that passes its checks. -/
def Obligations.OnlyTheseStepsWriteBuf : Prop :=
  ∀ (s t : State) (k : Nat), step s = .next t → t.buf.read k ≠ s.buf.read k →
    Resets s ∨
    (∃ addr data rest, s.pending = .request (.write addr data) :: rest ∧ addr.toNat % 4 = 0 ∧
      addr.toNat ≤ 0x100 + k ∧ 0x100 + k < addr.toNat + 4) ∨
    (∃ dst src, (Runs s (.enc dst src) ∨ Runs s (.dec dst src)) ∧ s.rkValid = true ∧ src ≤ 240 ∧ dst ≤ 240 ∧
      dst ≤ k ∧ k < dst + 16)

/-- R273: the partial overlap of H-3 is the only thing that stops a step; every other state goes on. -/
def Obligations.OnlyHazardH3Stops : Prop := ∀ s : State, Continues s ↔ ¬ HazardH3 s

/-- R37, R69: what a transaction does and answers depends on the five elements of the engine only, not on the
transactions before it or after it. -/
def Obligations.TransactionsDependOnTheEngineOnly : Prop :=
  ∀ (s s' t : State) (e : HostEvent) (rest rest' : List HostEvent), SameEngine s s' →
    s.pending = e :: rest → s'.pending = e :: rest' → step s = .next t →
      ∃ t' new, step s' = .next t' ∧ SameEngine t t' ∧
        t.responses = s.responses ++ new ∧ t'.responses = s'.responses ++ new

/-- R50, R243: RK cannot be read: two engines that differ in RK only give the same responses and reports, and differ
afterwards in BUF only through an ENC or a DEC. -/
def Obligations.RoundKeysAreNotReadable : Prop :=
  ∀ (s t : State) (rk' : RoundKeys), step s = .next t →
    ∃ t', step { s with rk := rk' } = .next t' ∧ t'.responses = t.responses ∧ t'.rkValid = t.rkValid ∧
      t'.err = t.err ∧ t'.errinfo = t.errinfo ∧ t'.pending = t.pending ∧
      ((¬ ∃ dst src, Runs s (.enc dst src) ∨ Runs s (.dec dst src)) → t'.buf = t.buf)

/-- The invariant of `Inv` (the canonical form of BUF, R39, R230) is kept by every step from every state that has it. -/
def Obligations.StepKeepsInv : Prop := ∀ s t : State, Inv s → step s = .next t → Inv t

/-- The state after reset has the invariant. -/
def Obligations.ResetHasInv : Prop := Inv State.reset

/-- R52, R270, R276: over any run of `n` steps each of the first `n` events is taken in order, every request gets exactly one
response, in order, with `rsp_err` set exactly on the bus errors, and a reset gets none; and a run in which no state
meets H-3 is answered. -/
def Obligations.EveryRequestIsAnsweredInOrder : Prop :=
  (∀ (n : Nat) (s t : State), Host.Core.run Sys2Proof.core n s = .next t →
    ∃ new : List Response, t.responses = s.responses ++ new ∧
      new.map (fun r => r.err) = (requestsOf (s.pending.take n)).map isBusError ∧
      t.pending = s.pending.drop n) ∧
  (∀ (n : Nat) (s : State),
    (∀ k t, k < n → Host.Core.run Sys2Proof.core k s = .next t → ¬ HazardH3 t) → SafeRun n s)

/-! ### The pseudo-instructions of host programs -/

/-- R99: running the transactions of `PUT off, bytes` stores the bytes from `off` on and changes nothing else of the
engine. -/
def Obligations.PutStoresItsBytes : Prop :=
  ∀ (off : Nat) (bytes : List Byte) (reqs : List Request) (s : State) (rest : List HostEvent),
    Asm.expand (.put off bytes) = some reqs → s.buf.wf = true →
    s.pending = reqs.map HostEvent.request ++ rest →
      ∃ t : State, Host.Core.run Sys2Proof.core reqs.length s = .next t ∧
        (∀ (j : Nat) (hj : j < bytes.length), t.buf.read (off + j) = bytes[j]) ∧
        (∀ a, a < off ∨ off + bytes.length ≤ a → t.buf.read a = s.buf.read a) ∧
        t.rk = s.rk ∧ t.rkValid = s.rkValid ∧ t.err = s.err ∧ t.errinfo = s.errinfo ∧ t.pending = rest ∧
        t.responses = s.responses ++ List.replicate reqs.length { err := false, rdata := 0#32 }

/-- R99: running the transactions of `GET off, m` answers the m words from `off` on and changes nothing of the engine. -/
def Obligations.GetAnswersItsWords : Prop :=
  ∀ (off m : Nat) (reqs : List Request) (s : State) (rest : List HostEvent),
    Asm.expand (.get off m) = some reqs → s.pending = reqs.map HostEvent.request ++ rest →
      ∃ t : State, Host.Core.run Sys2Proof.core m s = .next t ∧ SameEngine t s ∧ t.pending = rest ∧
        t.responses = s.responses ++ (List.range m).map fun n =>
          { err := false
            rdata := le32 (s.buf.read (off + 4 * n)) (s.buf.read (off + 4 * n + 1)) (s.buf.read (off + 4 * n + 2))
              (s.buf.read (off + 4 * n + 3)) }
end

