-- ==== Sys2Proof/Laws/Memory.lean ====
section
/-! SUPPORT. The laws of BUF: read after write, every operation keeps the canonical form, and canonical memories that
read alike are equal. -/

namespace Sys2Proof.Machine

@[simp] theorem Memory.read_nil (k : Nat) : Memory.read [] k = 0#8 := rfl

theorem Memory.wfFrom_cons {lo k : Nat} {b : Byte} {m : Memory} :
    Memory.wfFrom lo ((k, b) :: m) = true ↔
      lo ≤ k ∧ k < 256 ∧ b ≠ 0#8 ∧ Memory.wfFrom (k + 1) m = true := by
  simp [Memory.wfFrom, Memory.unlisted, and_assoc]

theorem Memory.wfFrom_mono {lo lo' : Nat} (h : lo' ≤ lo) :
    ∀ {m : Memory}, Memory.wfFrom lo m = true → Memory.wfFrom lo' m = true
  | [], _ => rfl
  | (_, _) :: _, hm => by
    rw [Memory.wfFrom_cons] at hm ⊢
    exact ⟨h.trans hm.1, hm.2⟩

/-- Below its first index a canonical memory lists nothing. -/
theorem Memory.read_of_lt {lo : Nat} :
    ∀ {m : Memory}, Memory.wfFrom lo m = true → ∀ {k : Nat}, k < lo → m.read k = 0#8
  | [], _, _, _ => rfl
  | (k', b) :: m, hm, k, hk => by
    rw [Memory.wfFrom_cons] at hm
    have : k' ≠ k := by omega
    simp only [Memory.read, this, if_false]
    exact Memory.read_of_lt hm.2.2.2 (by omega)

/-- A write leaves every other byte alone. -/
theorem Memory.read_write_other {k a : Nat} (v : Byte) (h : k ≠ a) :
    ∀ m : Memory, (m.write k v).read a = m.read a
  | [] => by
    unfold Memory.write
    split <;> simp [Memory.read, h, Memory.unlisted]
  | (k', b) :: m => by
    unfold Memory.write
    split
    · split <;> simp [Memory.read, h]
    · split
      · next h' => subst h'; split <;> simp [Memory.read, h]
      · simp [Memory.read, Memory.read_write_other v h m]

/-- A read after a write to the same byte gives the value written. -/
theorem Memory.read_write_same_from {lo k : Nat} (v : Byte) :
    ∀ {m : Memory}, Memory.wfFrom lo m = true → (m.write k v).read k = v
  | [], _ => by
    unfold Memory.write
    split
    · next h => simp [h, Memory.unlisted]
    · simp [Memory.read]
  | (k', b) :: m, hm => by
    rw [Memory.wfFrom_cons] at hm
    unfold Memory.write
    split
    · next hlt =>
      split
      · next h =>
        have : k' ≠ k := by omega
        simp only [Memory.read, this, if_false, h, Memory.unlisted]
        exact Memory.read_of_lt hm.2.2.2 (by omega)
      · simp [Memory.read]
    · split
      · next h' =>
        subst h'
        split
        · next h =>
          simp only [h, Memory.unlisted]
          exact Memory.read_of_lt hm.2.2.2 (by omega)
        · simp [Memory.read]
      · next h' =>
        simp only [Memory.read, h', if_false]
        exact Memory.read_write_same_from v hm.2.2.2

theorem Memory.read_write_same {m : Memory} (hm : m.wf = true) (k : Nat) (v : Byte) : (m.write k v).read k = v :=
  Memory.read_write_same_from v hm

theorem Memory.wfFrom_write {lo k : Nat} (v : Byte) (hk : k < 256) (hlo : lo ≤ k) :
    ∀ {m : Memory}, Memory.wfFrom lo m = true → Memory.wfFrom lo (m.write k v) = true
  | [], _ => by
    unfold Memory.write
    split
    · rfl
    · next h => exact Memory.wfFrom_cons.2 ⟨hlo, hk, by simpa [Memory.unlisted] using h, rfl⟩
  | (k', b) :: m, hm => by
    have hm' := hm
    rw [Memory.wfFrom_cons] at hm
    unfold Memory.write
    split
    · next hlt =>
      split
      · exact hm'
      · next h =>
        refine Memory.wfFrom_cons.2 ⟨hlo, hk, by simpa [Memory.unlisted] using h, ?_⟩
        exact Memory.wfFrom_cons.2 ⟨by omega, hm.2⟩
    · split
      · next h' =>
        subst h'
        split
        · exact Memory.wfFrom_mono (by omega) hm.2.2.2
        · next h => exact Memory.wfFrom_cons.2 ⟨hlo, hk, by simpa [Memory.unlisted] using h, hm.2.2.2⟩
      · refine Memory.wfFrom_cons.2 ⟨hm.1, hm.2.1, hm.2.2.1, ?_⟩
        exact Memory.wfFrom_write v hk (by omega) hm.2.2.2

/-- A write keeps the canonical form. -/
theorem Memory.wf_write {m : Memory} (hm : m.wf = true) {k : Nat} (hk : k < 256) (v : Byte) : (m.write k v).wf = true :=
  Memory.wfFrom_write v hk (Nat.zero_le k) hm

theorem memWriteList_wf :
    ∀ (bs : List Byte) {m : Memory} {off : Nat}, m.wf = true → off + bs.length ≤ 256 → (memWriteList m off bs).wf = true
  | [], _, _, hm, _ => hm
  | b :: bs, _, _, hm, h => by
    rw [List.length_cons] at h
    exact memWriteList_wf bs (Memory.wf_write hm (by omega) b) (by omega)

/-- MemWrite keeps the canonical form. -/
theorem memWrite_wf {n : Nat} {m : Memory} (hm : m.wf = true) {off : Nat} (bytes : Vector Byte n) (h : off + n ≤ 256) :
    (memWrite m off bytes).wf = true :=
  memWriteList_wf _ hm (by simpa using h)

theorem memWriteList_read_outside {a : Nat} :
    ∀ (bs : List Byte) (m : Memory) (off : Nat), (a < off ∨ off + bs.length ≤ a) →
      (memWriteList m off bs).read a = m.read a
  | [], _, _, _ => rfl
  | b :: bs, m, off, h => by
    rw [List.length_cons] at h
    rw [memWriteList, memWriteList_read_outside bs _ _ (by omega), Memory.read_write_other b (by omega)]

/-- MemWrite changes no byte outside the bytes it stores to. -/
theorem memWrite_read_outside {n : Nat} (m : Memory) (off : Nat) (bytes : Vector Byte n) {a : Nat}
    (h : a < off ∨ off + n ≤ a) : (memWrite m off bytes).read a = m.read a :=
  memWriteList_read_outside _ m off (by simpa using h)

theorem memWriteList_read_inside :
    ∀ (bs : List Byte) {m : Memory} {off : Nat}, m.wf = true → off + bs.length ≤ 256 → ∀ (j : Nat) (hj : j < bs.length),
      (memWriteList m off bs).read (off + j) = bs[j]
  | b :: bs, m, off, hm, h, 0, _ => by
    rw [memWriteList, memWriteList_read_outside bs _ _ (by omega)]
    exact Memory.read_write_same hm off b
  | b :: bs, m, off, hm, h, j + 1, hj => by
    simp only [List.length_cons] at h hj
    have := memWriteList_read_inside bs (Memory.wf_write hm (k := off) (by omega) b) (off := off + 1) (by omega) j
      (by omega)
    rw [memWriteList, show off + (j + 1) = off + 1 + j by omega, this]
    rfl

/-- MemWrite stores the bytes it is given. -/
theorem memWrite_read_inside {n : Nat} {m : Memory} (hm : m.wf = true) {off : Nat} (bytes : Vector Byte n)
    (h : off + n ≤ 256) {j : Nat} (hj : j < n) : (memWrite m off bytes).read (off + j) = bytes[j] := by
  have := memWriteList_read_inside bytes.toList hm (off := off) (by simpa using h) j (by simpa using hj)
  simpa [memWrite] using this

/-- Canonical memories that read alike are equal. -/
theorem Memory.ext_from :
    ∀ {m m' : Memory} {lo : Nat}, Memory.wfFrom lo m = true → Memory.wfFrom lo m' = true →
      (∀ k, lo ≤ k → m.read k = m'.read k) → m = m'
  | [], [], _, _, _, _ => rfl
  | [], (k', b') :: m', lo, _, hm', h => by
    rw [Memory.wfFrom_cons] at hm'
    have := h k' hm'.1
    simp only [Memory.read, if_true] at this
    exact absurd this.symm hm'.2.2.1
  | (k, b) :: m, [], lo, hm, _, h => by
    rw [Memory.wfFrom_cons] at hm
    have := h k hm.1
    simp only [Memory.read, if_true] at this
    exact absurd this hm.2.2.1
  | (k, b) :: m, (k', b') :: m', lo, hm, hm', h => by
    rw [Memory.wfFrom_cons] at hm hm'
    rcases Nat.lt_trichotomy k k' with hk | hk | hk
    · have := h k hm.1
      simp only [Memory.read, if_true, show k' ≠ k by omega, if_false] at this
      rw [Memory.read_of_lt hm'.2.2.2 (by omega)] at this
      exact absurd this hm.2.2.1
    · subst hk
      have hb := h k hm.1
      simp only [Memory.read, if_true] at hb
      have htail : ∀ a, k + 1 ≤ a → Memory.read m a = Memory.read m' a := by
        intro a ha
        have := h a (by omega)
        simpa only [Memory.read, show k ≠ a by omega, if_false] using this
      rw [hb, Memory.ext_from hm.2.2.2 hm'.2.2.2 htail]
    · have := h k' hm'.1
      simp only [Memory.read, if_true, show k ≠ k' by omega, if_false] at this
      rw [Memory.read_of_lt hm.2.2.2 (by omega)] at this
      exact absurd this.symm hm'.2.2.1

theorem Memory.ext_of_wf {m m' : Memory} (hm : m.wf = true) (hm' : m'.wf = true) (h : ∀ k, m.read k = m'.read k) :
    m = m' :=
  Memory.ext_from hm hm' fun k _ => h k

/-- MemRead gives the bytes of BUF in ascending order. -/
theorem memRead16_get (m : Memory) (off : Nat) {j : Nat} (hj : j < 16) : (memRead16 m off)[j] = m.read (off + j) := by
  have : j = 0 ∨ j = 1 ∨ j = 2 ∨ j = 3 ∨ j = 4 ∨ j = 5 ∨ j = 6 ∨ j = 7 ∨ j = 8 ∨ j = 9 ∨ j = 10 ∨ j = 11 ∨ j = 12 ∨
      j = 13 ∨ j = 14 ∨ j = 15 := by omega
  rcases this with h | h | h | h | h | h | h | h | h | h | h | h | h | h | h | h <;> subst h <;> rfl

/-- MemRead is determined by its 16 bytes. -/
theorem memRead16_eq_iff (m : Memory) (off : Nat) (p : Bytes16) :
    memRead16 m off = p ↔ ∀ (j : Nat) (hj : j < 16), m.read (off + j) = p[j] := by
  constructor
  · rintro rfl j hj
    exact (memRead16_get m off hj).symm
  · intro h
    ext j hj
    rw [memRead16_get m off hj, h j hj]

/-- BUF after reset is in its canonical form. -/
theorem reset_buf_wf : State.reset.buf.wf = true := rfl

end Sys2Proof.Machine
end

