-- ==== Sys2Proof/Laws/State.lean ====
section
/-! SUPPORT. One lemma per field per update of State. -/

namespace Sys2Proof.Machine

@[simp] theorem raiseError_rk (e : ErrorKind) (info : Word) (s : State) : (raiseError e info s).rk = s.rk := rfl
@[simp] theorem raiseError_rkValid (e : ErrorKind) (info : Word) (s : State) : (raiseError e info s).rkValid = s.rkValid := rfl
@[simp] theorem raiseError_err (e : ErrorKind) (info : Word) (s : State) : (raiseError e info s).err = e.code := rfl
@[simp] theorem raiseError_errinfo (e : ErrorKind) (info : Word) (s : State) : (raiseError e info s).errinfo = info := rfl
@[simp] theorem raiseError_buf (e : ErrorKind) (info : Word) (s : State) : (raiseError e info s).buf = s.buf := rfl
@[simp] theorem raiseError_pending (e : ErrorKind) (info : Word) (s : State) : (raiseError e info s).pending = s.pending := rfl
@[simp] theorem raiseError_responses (e : ErrorKind) (info : Word) (s : State) : (raiseError e info s).responses = s.responses := rfl

@[simp] theorem complete_rk (s : State) : (complete s).rk = s.rk := rfl
@[simp] theorem complete_rkValid (s : State) : (complete s).rkValid = s.rkValid := rfl
@[simp] theorem complete_err (s : State) : (complete s).err = codeNone := rfl
@[simp] theorem complete_errinfo (s : State) : (complete s).errinfo = 0#32 := rfl
@[simp] theorem complete_buf (s : State) : (complete s).buf = s.buf := rfl
@[simp] theorem complete_pending (s : State) : (complete s).pending = s.pending := rfl
@[simp] theorem complete_responses (s : State) : (complete s).responses = s.responses := rfl

@[simp] theorem installKey_rk (rk : RoundKeys) (s : State) : (installKey rk s).rk = rk := rfl
@[simp] theorem installKey_rkValid (rk : RoundKeys) (s : State) : (installKey rk s).rkValid = true := rfl
@[simp] theorem installKey_err (rk : RoundKeys) (s : State) : (installKey rk s).err = s.err := rfl
@[simp] theorem installKey_errinfo (rk : RoundKeys) (s : State) : (installKey rk s).errinfo = s.errinfo := rfl
@[simp] theorem installKey_buf (rk : RoundKeys) (s : State) : (installKey rk s).buf = s.buf := rfl
@[simp] theorem installKey_pending (rk : RoundKeys) (s : State) : (installKey rk s).pending = s.pending := rfl
@[simp] theorem installKey_responses (rk : RoundKeys) (s : State) : (installKey rk s).responses = s.responses := rfl

@[simp] theorem discardKey_rk (s : State) : (discardKey s).rk = Vector.replicate 44 0#32 := rfl
@[simp] theorem discardKey_rkValid (s : State) : (discardKey s).rkValid = false := rfl
@[simp] theorem discardKey_err (s : State) : (discardKey s).err = s.err := rfl
@[simp] theorem discardKey_errinfo (s : State) : (discardKey s).errinfo = s.errinfo := rfl
@[simp] theorem discardKey_buf (s : State) : (discardKey s).buf = s.buf := rfl
@[simp] theorem discardKey_pending (s : State) : (discardKey s).pending = s.pending := rfl
@[simp] theorem discardKey_responses (s : State) : (discardKey s).responses = s.responses := rfl

@[simp] theorem storeBytes_rk {n : Nat} (off : Nat) (bytes : Vector Byte n) (s : State) : (storeBytes off bytes s).rk = s.rk := rfl
@[simp] theorem storeBytes_rkValid {n : Nat} (off : Nat) (bytes : Vector Byte n) (s : State) : (storeBytes off bytes s).rkValid = s.rkValid := rfl
@[simp] theorem storeBytes_err {n : Nat} (off : Nat) (bytes : Vector Byte n) (s : State) : (storeBytes off bytes s).err = s.err := rfl
@[simp] theorem storeBytes_errinfo {n : Nat} (off : Nat) (bytes : Vector Byte n) (s : State) : (storeBytes off bytes s).errinfo = s.errinfo := rfl
@[simp] theorem storeBytes_buf {n : Nat} (off : Nat) (bytes : Vector Byte n) (s : State) : (storeBytes off bytes s).buf = memWrite s.buf off bytes := rfl
@[simp] theorem storeBytes_pending {n : Nat} (off : Nat) (bytes : Vector Byte n) (s : State) : (storeBytes off bytes s).pending = s.pending := rfl
@[simp] theorem storeBytes_responses {n : Nat} (off : Nat) (bytes : Vector Byte n) (s : State) : (storeBytes off bytes s).responses = s.responses := rfl

@[simp] theorem respond_rk (r : Response) (s : State) : (respond r s).rk = s.rk := rfl
@[simp] theorem respond_rkValid (r : Response) (s : State) : (respond r s).rkValid = s.rkValid := rfl
@[simp] theorem respond_err (r : Response) (s : State) : (respond r s).err = s.err := rfl
@[simp] theorem respond_errinfo (r : Response) (s : State) : (respond r s).errinfo = s.errinfo := rfl
@[simp] theorem respond_buf (r : Response) (s : State) : (respond r s).buf = s.buf := rfl
@[simp] theorem respond_pending (r : Response) (s : State) : (respond r s).pending = s.pending := rfl
@[simp] theorem respond_responses (r : Response) (s : State) : (respond r s).responses = s.responses ++ [r] := rfl

@[simp] theorem resetEngine_rk (s : State) : (resetEngine s).rk = Vector.replicate 44 0#32 := rfl
@[simp] theorem resetEngine_rkValid (s : State) : (resetEngine s).rkValid = false := rfl
@[simp] theorem resetEngine_err (s : State) : (resetEngine s).err = 0#4 := rfl
@[simp] theorem resetEngine_errinfo (s : State) : (resetEngine s).errinfo = 0#32 := rfl
@[simp] theorem resetEngine_buf (s : State) : (resetEngine s).buf = [] := rfl
@[simp] theorem resetEngine_pending (s : State) : (resetEngine s).pending = s.pending := rfl
@[simp] theorem resetEngine_responses (s : State) : (resetEngine s).responses = s.responses := rfl

@[simp] theorem placeCommand_rk (c : Word) (s : State) : (placeCommand c s).rk = s.rk := rfl
@[simp] theorem placeCommand_rkValid (c : Word) (s : State) : (placeCommand c s).rkValid = s.rkValid := rfl
@[simp] theorem placeCommand_err (c : Word) (s : State) : (placeCommand c s).err = s.err := rfl
@[simp] theorem placeCommand_errinfo (c : Word) (s : State) : (placeCommand c s).errinfo = s.errinfo := rfl
@[simp] theorem placeCommand_buf (c : Word) (s : State) : (placeCommand c s).buf = s.buf := rfl
@[simp] theorem placeCommand_pending (c : Word) (s : State) : (placeCommand c s).pending = .request (.write 0x000#9 c) :: s.pending := rfl
@[simp] theorem placeCommand_responses (c : Word) (s : State) : (placeCommand c s).responses = s.responses := rfl

@[simp] theorem ErrorKind_code_invalidKeySize : ErrorKind.invalidKeySize.code = 1#4 := rfl
@[simp] theorem ErrorKind_code_noKey : ErrorKind.noKey.code = 2#4 := rfl
@[simp] theorem ErrorKind_code_bufRange : ErrorKind.bufRange.code = 3#4 := rfl
@[simp] theorem ErrorKind_code_illegalCmd : ErrorKind.illegalCmd.code = 4#4 := rfl
@[simp] theorem codeNone_eq : codeNone = 0#4 := rfl

end Sys2Proof.Machine
end

