-- ==== Sys2Proof/Laws/Ops.lean ====
section
/-! SUPPORT. What each shared operation and each meaning can do, said once. -/

namespace Sys2Proof.Machine

theorem rotCount_lt (v : Word) : rotCount v < 32 := Nat.mod_lt _ (by decide)

/-- The range check as a comparison (spec/20_memory.md R67). -/
theorem inRange_iff (off : Nat) : inRange off ↔ off ≤ 240 := by
  show off + 16 ≤ 256 ↔ off ≤ 240
  omega

/-- The overlap check without absolute values (spec/20_memory.md R66). -/
theorem partialOverlap_iff (dst src : Nat) :
    partialOverlap dst src ↔ dst ≠ src ∧ dst < src + 16 ∧ src < dst + 16 := by
  show 0 < ((dst : Int) - (src : Int)).natAbs ∧ ((dst : Int) - (src : Int)).natAbs < 16 ↔ _
  omega

/-- The inversion of ENC and DEC: the error a next state reports, or the block written. -/
theorem blockCommand_next {f : RoundKeys → Bytes16 → Bytes16} {dst src : Nat} {s t : State}
    (h : blockCommand f dst src s = .next t) :
    (s.rkValid = false ∧ t = raiseError .noKey 0#32 s) ∨
    (s.rkValid = true ∧ ¬ inRange src ∧ t = raiseError .bufRange (BitVec.ofNat 32 src) s) ∨
    (s.rkValid = true ∧ inRange src ∧ ¬ inRange dst ∧ t = raiseError .bufRange (BitVec.ofNat 32 dst) s) ∨
    (s.rkValid = true ∧ inRange src ∧ inRange dst ∧ ¬ partialOverlap dst src ∧
      t = complete (storeBytes dst (f s.rk (memRead16 s.buf src)) s)) := by
  unfold blockCommand at h
  split at h
  · next hv => exact .inl ⟨hv, by simpa using h.symm⟩
  · next hv =>
    have hv' : s.rkValid = true := by simpa using hv
    split at h
    · next hs => exact .inr (.inl ⟨hv', hs, by simpa using h.symm⟩)
    · next hs =>
      have hs' : inRange src := not_not.1 hs
      split at h
      · next hd => exact .inr (.inr (.inl ⟨hv', hs', hd, by simpa using h.symm⟩))
      · next hd =>
        split at h
        · exact absurd h (by simp)
        · next hp => exact .inr (.inr (.inr ⟨hv', hs', not_not.1 hd, hp, by simpa using h.symm⟩))

/-- When ENC or DEC has no meaning. -/
theorem blockCommand_refused {f : RoundKeys → Bytes16 → Bytes16} {dst src : Nat} {s : State} {r : Refusal}
    (h : blockCommand f dst src s = .refused r) :
    s.rkValid = true ∧ inRange src ∧ inRange dst ∧ partialOverlap dst src ∧ r = .partialOverlap dst src := by
  unfold blockCommand at h
  split at h
  · exact absurd h (by simp)
  · next hv =>
    split at h
    · exact absurd h (by simp)
    · next hs =>
      split at h
      · exact absurd h (by simp)
      · next hd =>
        split at h
        · next hp => exact ⟨by simpa using hv, not_not.1 hs, not_not.1 hd, hp, by simpa using h.symm⟩
        · exact absurd h (by simp)

/-- ENC and DEC under the conditions in which they act. -/
theorem blockCommand_acts (f : RoundKeys → Bytes16 → Bytes16) {dst src : Nat} {s : State} (hv : s.rkValid = true)
    (hs : inRange src) (hd : inRange dst) (hp : ¬ partialOverlap dst src) :
    blockCommand f dst src s = .next (complete (storeBytes dst (f s.rk (memRead16 s.buf src)) s)) := by
  unfold blockCommand
  rw [if_neg (by simp [hv]), if_neg (not_not.2 hs), if_neg (not_not.2 hd), if_neg hp]

/-- KSCHED always answers a next state: one of its two errors, or the new Cipher. -/
theorem execKsched_next (koff klen : Nat) (s : State) :
    (klen ≠ 16 ∧ execKsched koff klen s = .next (raiseError .invalidKeySize (BitVec.ofNat 32 klen) s)) ∨
    (klen = 16 ∧ ¬ inRange koff ∧ execKsched koff klen s = .next (raiseError .bufRange (BitVec.ofNat 32 koff) s)) ∨
    (klen = 16 ∧ inRange koff ∧
      execKsched koff klen s = .next (complete (installKey (keyExpand (memRead16 s.buf koff)) s))) := by
  unfold execKsched
  by_cases hk : klen = Config.keyBytes
  · by_cases ho : inRange koff
    · exact .inr (.inr ⟨hk, ho, by rw [if_neg (by simpa using hk), if_neg (not_not.2 ho)]⟩)
    · exact .inr (.inl ⟨hk, ho, by rw [if_neg (by simpa using hk), if_pos ho]⟩)
  · exact .inl ⟨hk, by rw [if_pos hk]⟩

end Sys2Proof.Machine
end

