-- ==== Sys2Proof/Laws/WellFormed.lean ====
section
/-! SUPPORT. What the well-formedness check says of each command, and the fields of a word as numbers. -/

namespace Sys2Proof

@[simp] theorem wellFormed_ksched (koff klen : Nat) : (Instr.ksched koff klen).WellFormed ↔ koff < 256 ∧ klen < 65536 := by
  simp [Instr.WellFormed, Instr.wellFormed, Config.offBits, Config.klenBits]

@[simp] theorem wellFormed_enc (dst src : Nat) : (Instr.enc dst src).WellFormed ↔ dst < 256 ∧ src < 256 := by
  simp [Instr.WellFormed, Instr.wellFormed, Config.offBits]

@[simp] theorem wellFormed_dec (dst src : Nat) : (Instr.dec dst src).WellFormed ↔ dst < 256 ∧ src < 256 := by
  simp [Instr.WellFormed, Instr.wellFormed, Config.offBits]

@[simp] theorem wellFormed_clr : Instr.clr.WellFormed := rfl

/-- A field of a word as a quotient and a remainder. -/
theorem field_eq (c : Word) (lo len : Nat) : field c lo len = c.toNat / 2 ^ lo % 2 ^ len := by
  simp [field, BitVec.extractLsb'_toNat, Nat.shiftRight_eq_div_pow]

theorem field_lt (c : Word) (lo len : Nat) : field c lo len < 2 ^ len := by
  rw [field_eq]
  exact Nat.mod_lt _ (by positivity)

end Sys2Proof
end

