-- ==== Sys2Proof/Laws/PerInstr.lean ====
section
/-! SUPPORT. The statement made of every command: the word that `encode` writes has the bits that spec/opcode_table.json
fixes (mask and match), as spec/30_encoding.md R97 lists them. -/

namespace Sys2Proof.Laws.TableBits

/-- The mask of a command's row in spec/opcode_table.json. -/
def mask : Instr → Word
  | .ksched _ _ => 0x000000FF#32
  | .enc _ _ => 0xFF0000FF#32
  | .dec _ _ => 0xFF0000FF#32
  | .clr => 0xFFFFFFFF#32

/-- The match of a command's row in spec/opcode_table.json. -/
def pattern : Instr → Word
  | .ksched _ _ => 0x00000001#32
  | .enc _ _ => 0x00000002#32
  | .dec _ _ => 0x00000003#32
  | .clr => 0x00000004#32

/-- `encode i` has the bits the table fixes. -/
def Statement (i : Instr) : Prop := i.WellFormed → encode i &&& mask i = pattern i

theorem low_byte {w : Nat} {op : Nat} (hop : op < 256) (h : w % 256 = op) :
    BitVec.ofNat 32 w &&& 0x000000FF#32 = BitVec.ofNat 32 op := by
  apply BitVec.eq_of_toNat_eq
  have : (255 : Nat) = 2 ^ 8 - 1 := rfl
  simp only [BitVec.toNat_and, BitVec.toNat_ofNat]
  rw [show 255 % 2 ^ 32 = 2 ^ 8 - 1 by decide, Nat.and_two_pow_sub_one_eq_mod]
  omega

/-- A word below 2²⁴ has the same bits under the masks of formats K and B. -/
theorem format_b_bits {w : Nat} {op : Nat} (hw : w < 2 ^ 24) (hop : op < 256) (h : w % 256 = op) :
    BitVec.ofNat 32 w &&& 0xFF0000FF#32 = BitVec.ofNat 32 op := by
  rw [← low_byte hop h]
  apply BitVec.eq_of_getLsbD_eq
  intro i hi
  simp only [BitVec.getLsbD_and, BitVec.getLsbD_ofNat]
  by_cases hi24 : 24 ≤ i
  · have : w.testBit i = false := Nat.testBit_lt_two_pow (hw.trans_le (Nat.pow_le_pow_right (by decide) hi24))
    simp [this]
  · have masks : ∀ j < 24, Nat.testBit 0xFF0000FF j = Nat.testBit 0x000000FF j := by decide
    rw [masks i (by omega)]

theorem ksched (koff klen : Nat) : Statement (.ksched koff klen) := by
  intro h
  exact low_byte (op := 1) (by decide) (by omega)

theorem enc (dst src : Nat) : Statement (.enc dst src) := by
  intro h
  rw [wellFormed_enc] at h
  exact format_b_bits (op := 2) (by omega) (by decide) (by omega)

theorem dec (dst src : Nat) : Statement (.dec dst src) := by
  intro h
  rw [wellFormed_dec] at h
  exact format_b_bits (op := 3) (by omega) (by decide) (by omega)

theorem clr : Statement .clr := by
  intro _
  decide

end Sys2Proof.Laws.TableBits
end

