-- ==== Sys2Proof/Laws/Step.lean ====
section
/-! SUPPORT. What one step can do, said once: by the oldest event still to come, and by the port a request meets. -/

namespace Sys2Proof.Machine

/-- With no event to take the engine is idle. -/
theorem step_idle {s : State} (h : s.pending = []) : step s = .next s := by
  simp [step, nextEvent, h]

theorem step_event {s : State} {e : HostEvent} {rest : List HostEvent} (h : s.pending = e :: rest) :
    step s = applyEvent e { s with pending := rest } := by
  simp [step, nextEvent, h]

theorem step_reset {s : State} {a : Option Request} {rest : List HostEvent} (h : s.pending = .reset a :: rest) :
    step s = .next (resetEngine { s with pending := rest }) := by
  rw [step_event h]
  rfl

theorem step_request {s : State} {r : Request} {rest : List HostEvent} (h : s.pending = .request r :: rest) :
    step s = transact r { s with pending := rest } := by
  rw [step_event h]
  rfl

theorem thenRespond_next {r : Response} {o : Host.Outcome State Fault Refusal} {t : State}
    (h : thenRespond r o = .next t) : ∃ u, o = .next u ∧ t = respond r u := by
  cases o with
  | next u => exact ⟨u, rfl, by simpa [thenRespond] using h.symm⟩
  | fault f => exact nomatch f
  | refused f => simp [thenRespond] at h

theorem transact_busError {r : Request} {s : State} (h : busError r = true) :
    transact r s = .next (respond errorResponse s) := by
  simp [transact, h]

/-- A write to `CMD` is never a bus error (spec/20_memory.md R55). -/
theorem transact_command (c : Word) (s : State) :
    transact (.write 0x000#9 c) s = thenRespond writeResponse (commandWrite c s) := by
  rfl

/-- The command write of a word that encodes a command runs the command. -/
theorem step_command {s : State} {c : Word} {i : Instr} {rest : List HostEvent}
    (h : s.pending = .request (.write 0x000#9 c) :: rest) (hd : decode c = .ok i) :
    step s = thenRespond writeResponse (exec i { s with pending := rest }) := by
  rw [step_request h, transact_command, commandWrite, hd]

/-- The command write of a word that encodes none raises `ILLEGAL_CMD`. -/
theorem step_illegal {s : State} {c : Word} {why : DecodeReject} {rest : List HostEvent}
    (h : s.pending = .request (.write 0x000#9 c) :: rest) (hd : decode c = .error why) :
    step s = .next (respond writeResponse (raiseIllegal c { s with pending := rest })) := by
  rw [step_request h, transact_command, commandWrite, hd]
  rfl

/-- `withFetchWord` places one command write before everything else. -/
theorem withFetchWord_pending (s : State) (nbits w : Nat) :
    (s.withFetchWord nbits w).pending = .request (.write 0x000#9 (tableWord nbits w)) :: s.pending := rfl

theorem eq_of_next {t u : State} (h : Host.Outcome.next (φ := Fault) (ρ := Refusal) t = .next u) : u = t := by
  simpa using h.symm

/-- `CMD` has one address. -/
theorem portAt_cmd {a : BitVec 9} (h : portAt a = .cmd) : a = 0x000#9 := by
  unfold portAt at h
  split at h
  · next ha => exact BitVec.eq_of_toNat_eq (by simpa using ha)
  · split_ifs at h

/-- A window address names the BUF byte that lies as far into the window. -/
theorem portAt_window {a : BitVec 9} {k : Nat} (h : portAt a = .window k) : a.toNat = 0x100 + k := by
  unfold portAt at h
  split_ifs at h
  rw [Port.window.injEq] at h
  omega

/-- The window's half of the address map. -/
theorem portAt_of_window {a : BitVec 9} {k : Nat} (h : a.toNat = 0x100 + k) : portAt a = .window k := by
  unfold portAt
  rw [if_neg (by omega), if_neg (by omega), if_neg (by omega), if_neg (by omega), if_neg (by omega), Port.window.injEq]
  omega

/-- The inversion of the write of a word to `CMD` (spec/60_exceptions.md R235). -/
theorem commandWrite_next {c : Word} {s u : State} (h : commandWrite c s = .next u) :
    (∃ why, decode c = .error why ∧ u = raiseIllegal c s) ∨
    (∃ koff klen, decode c = .ok (.ksched koff klen) ∧ klen ≠ 16 ∧
      u = raiseError .invalidKeySize (BitVec.ofNat 32 klen) s) ∨
    (∃ koff, decode c = .ok (.ksched koff 16) ∧ ¬ inRange koff ∧
      u = raiseError .bufRange (BitVec.ofNat 32 koff) s) ∨
    (∃ koff, decode c = .ok (.ksched koff 16) ∧ inRange koff ∧
      u = complete (installKey (keyExpand (memRead16 s.buf koff)) s)) ∨
    (∃ dst src f, (decode c = .ok (.enc dst src) ∧ f = encBlock ∨ decode c = .ok (.dec dst src) ∧ f = decBlock) ∧
      blockCommand f dst src s = .next u) ∨
    (decode c = .ok .clr ∧ u = complete (discardKey s)) := by
  unfold commandWrite at h
  cases hd : decode c with
  | error why =>
    rw [hd] at h
    exact .inl ⟨why, rfl, eq_of_next h⟩
  | ok i =>
    rw [hd] at h
    refine .inr ?_
    cases i with
    | ksched koff klen =>
      replace h : execKsched koff klen s = .next u := h
      rcases execKsched_next koff klen s with ⟨hk, e⟩ | ⟨hk, ho, e⟩ | ⟨hk, ho, e⟩
      · rw [e] at h
        exact .inl ⟨koff, klen, rfl, hk, eq_of_next h⟩
      · rw [e] at h
        subst hk
        exact .inr (.inl ⟨koff, rfl, ho, eq_of_next h⟩)
      · rw [e] at h
        subst hk
        exact .inr (.inr (.inl ⟨koff, rfl, ho, eq_of_next h⟩))
    | enc dst src => exact .inr (.inr (.inr (.inl ⟨dst, src, _, .inl ⟨rfl, rfl⟩, h⟩)))
    | dec dst src => exact .inr (.inr (.inr (.inl ⟨dst, src, _, .inr ⟨rfl, rfl⟩, h⟩)))
    | clr => exact .inr (.inr (.inr (.inr ⟨rfl, eq_of_next h⟩)))

/-- The inversion of a step: idle, a reset, a bus error, a read, a write to the BUF window, or a command. -/
theorem step_next {s t : State} (h : step s = .next t) :
    (s.pending = [] ∧ t = s) ∨
    (∃ a rest, s.pending = .reset a :: rest ∧ t = resetEngine { s with pending := rest }) ∨
    (∃ r rest, s.pending = .request r :: rest ∧ busError r = true ∧
      t = respond errorResponse { s with pending := rest }) ∨
    (∃ a rest, s.pending = .request (.read a) :: rest ∧ busError (.read a) = false ∧
      t = respond { err := false, rdata := readData s (portAt a) } { s with pending := rest }) ∨
    (∃ a d rest k, s.pending = .request (.write a d) :: rest ∧ busError (.write a d) = false ∧ portAt a = .window k ∧
      t = respond writeResponse (storeBytes k (st32 d) { s with pending := rest })) ∨
    (∃ c rest u, s.pending = .request (.write 0x000#9 c) :: rest ∧ commandWrite c { s with pending := rest } = .next u ∧
      t = respond writeResponse u) := by
  cases hp : s.pending with
  | nil =>
    rw [step_idle hp] at h
    exact .inl ⟨rfl, eq_of_next h⟩
  | cons e rest =>
    refine .inr ?_
    cases e with
    | reset a =>
      rw [step_reset hp] at h
      exact .inl ⟨a, rest, rfl, eq_of_next h⟩
    | request r =>
      refine .inr ?_
      rw [step_request hp] at h
      by_cases hb : busError r = true
      · rw [transact_busError hb] at h
        exact .inl ⟨r, rest, rfl, hb, eq_of_next h⟩
      · refine .inr ?_
        have hb' : busError r = false := by simpa using hb
        unfold transact at h
        rw [if_neg hb] at h
        cases r with
        | read a =>
          refine .inl ⟨a, rest, rfl, hb', (eq_of_next h).trans ?_⟩
          cases portAt a <;> rfl
        | write a d =>
          refine .inr ?_
          obtain ⟨u, hu, rfl⟩ := thenRespond_next h
          cases hpa : portAt a with
          | cmd =>
            obtain rfl := portAt_cmd hpa
            exact .inr ⟨d, rest, u, rfl, hu, rfl⟩
          | window k =>
            rw [hpa] at hu
            exact .inl ⟨a, d, rest, k, rfl, hb', hpa, by rw [eq_of_next hu]⟩
          | unmapped => simp [busError, Request.addr, hpa, forbidden] at hb'
          | status => simp [busError, Request.addr, hpa, forbidden] at hb'
          | errinfo => simp [busError, Request.addr, hpa, forbidden] at hb'
          | blksize => simp [busError, Request.addr, hpa, forbidden] at hb'

theorem run_zero (s : State) : Host.Core.run Sys2Proof.core 0 s = .next s := rfl

/-- A run of one more step takes the step first. -/
theorem run_succ_next {s u : State} (n : Nat) (h : step s = .next u) :
    Host.Core.run Sys2Proof.core (n + 1) s = Host.Core.run Sys2Proof.core n u := by
  have h' : Sys2Proof.core.step s = .next u := h
  simp only [Host.Core.run, h']

theorem run_succ_refused {s : State} {r : Refusal} (n : Nat) (h : step s = .refused r) :
    Host.Core.run Sys2Proof.core (n + 1) s = .refused r := by
  have h' : Sys2Proof.core.step s = .refused r := h
  simp only [Host.Core.run, h']

/-- A run of `n + 1` steps that answers a next state is a step and a run of `n`. -/
theorem run_succ_inv {s t : State} {n : Nat} (h : Host.Core.run Sys2Proof.core (n + 1) s = .next t) :
    ∃ u, step s = .next u ∧ Host.Core.run Sys2Proof.core n u = .next t := by
  cases hs : step s with
  | next u => exact ⟨u, rfl, by rwa [run_succ_next n hs] at h⟩
  | fault f => exact nomatch f
  | refused r =>
    rw [run_succ_refused n hs] at h
    exact absurd h (by simp)

end Sys2Proof.Machine
end

