-- ==== Sys2Proof/Tests/Slice0.lean ====
section
/-! SUPPORT. Tests, with expected results from spec/ (each cites its source), and a witness for every statement that has
hypotheses. -/

namespace Sys2Proof.Tests

open Sys2Proof Sys2Proof.Machine Sys2Proof.Claims

/-! ### Helpers -/

/-- The next state of an outcome. -/
def nextOf : Host.Outcome State Fault Refusal → Option State
  | .next s => some s
  | _ => none

/-- The refusal of an outcome. -/
def refusalOf : Host.Outcome State Fault Refusal → Option Refusal
  | .refused r => some r
  | _ => none

def zeros16 : Bytes16 := Vector.replicate 16 0#8

/-- An engine that holds a Cipher whose round keys are all 0. -/
def keyed : State := { State.reset with rkValid := true }

/-- `s` with the one event `e` to come. -/
def facing (e : HostEvent) (s : State) : State := { s with pending := [e] }

/-- `s` with the write of `c` to `CMD` to come. -/
def commanding (c : Word) (s : State) : State := facing (.request (.write 0x000#9 c)) s

/-! ### Well-formedness: an ill-formed term for each check -/

theorem test_wellFormed_refuses_koff_256 : (Instr.ksched 256 16).wellFormed = false := by decide
theorem test_wellFormed_refuses_klen_65536 : (Instr.ksched 0 65536).wellFormed = false := by decide
theorem test_wellFormed_refuses_enc_dst_256 : (Instr.enc 256 0).wellFormed = false := by decide
theorem test_wellFormed_refuses_enc_src_256 : (Instr.enc 0 256).wellFormed = false := by decide
theorem test_wellFormed_refuses_dec_dst_256 : (Instr.dec 256 0).wellFormed = false := by decide
theorem test_wellFormed_refuses_dec_src_256 : (Instr.dec 0 256).wellFormed = false := by decide

/-! ### Decoding: words written out from the field tables of 30_encoding.md R91 -/

/-- KLEN 0x0010, KOFF 0x03, Z0 0, OP 1 (V71). -/
theorem test_decode_ksched : decode 0b0000000000010000_00000011_0000_0001#32 = .ok (.ksched 3 16) := by decide
/-- Every operand bit set (V73). -/
theorem test_decode_ksched_all_ones : decode 0b1111111111111111_11111111_0000_0001#32 = .ok (.ksched 255 65535) := by
  decide
/-- Z1 0, DST 80, SRC 64, Z0 0, OP 2 (V77). -/
theorem test_decode_enc : decode 0b00000000_01010000_01000000_0000_0010#32 = .ok (.enc 80 64) := by decide
/-- Z1 0, DST 32, SRC 16, Z0 0, OP 3 (V81). -/
theorem test_decode_dec : decode 0b00000000_00100000_00010000_0000_0011#32 = .ok (.dec 32 16) := by decide
/-- Z 0, OP 4 (V84). -/
theorem test_decode_clr : decode 0b0000000000000000000000000000_0100#32 = .ok .clr := by decide
/-- V75, V79, V80, V83, V85, V87: a 1 in a must-be-zero field. -/
theorem test_decode_must_be_zero :
    [0x00000011#32, 0x01000002#32, 0x00000022#32, 0x80000003#32, 0x00000104#32, 0x80000004#32].all
      (fun c => decide (decode c = .error .mustBeZero)) = true := by decide
/-- V88, V89, V90, V91, V92: a reserved opcode. -/
theorem test_decode_reserved :
    [0x00000000#32, 0x00000005#32, 0x0000000F#32, 0xFFFFFFFF#32, 0x00100009#32].all
      (fun c => decide (decode c = .error .reservedOpcode)) = true := by decide
/-- The command words of program P2 (95_test_vectors.md). -/
theorem test_encode_words :
    encode (.ksched 0 16) = 0x00100001#32 ∧ encode (.enc 80 64) = 0x00504002#32 ∧
    encode (.dec 80 80) = 0x00505003#32 ∧ encode .clr = 0x00000004#32 := by decide
theorem test_decodeTableWord_short : decodeTableWord 8 0x00100001 = some (.ksched 0 0) := by decide

/-! ### Arithmetic and layouts -/

/-- V20, V21, V23, V24. -/
theorem test_add_sub_mul_wrap :
    add32 0xFFFFFFFF#32 2#32 = 1#32 ∧ sub32 1#32 2#32 = 0xFFFFFFFF#32 ∧
    mul32 0xFFFFFFFF#32 0xFFFFFFFF#32 = 1#32 ∧ mul32 0x80000000#32 2#32 = 0#32 := by decide
/-- spec/40_arithmetic.md R124, worked by hand: each of the four pairs of bits. -/
theorem test_xor : xor32 0x0000FFFF#32 0x00FF00FF#32 = 0x00FFFF00#32 ∧ xor32 0xCCCCCCCC#32 0xAAAAAAAA#32 = 0x66666666#32 := by
  decide
/-- V26 to V31. -/
theorem test_rotations :
    rotl32 0x80000001#32 1 = 3#32 ∧ rotl32 0x12345678#32 0 = 0x12345678#32 ∧ rotl32 1#32 31 = 0x80000000#32 ∧
    rotl32 0x12345678#32 8 = 0x34567812#32 ∧ rotr32 3#32 1 = 0x80000001#32 ∧
    rotr32 0x34567812#32 8 = 0x12345678#32 := by decide
/-- V32, V33. -/
theorem test_rotation_count_is_masked :
    rotl32 0xDEADBEEF#32 (rotCount 32#32) = 0xDEADBEEF#32 ∧ rotl32 1#32 (rotCount 0xFFFFFFFF#32) = 0x80000000#32 := by
  decide
/-- V34 to V40. -/
theorem test_G :
    G 0#32 = 0#32 ∧ G 1#32 = 0x60#32 ∧ G 2#32 = 0x140#32 ∧ G 0xFFFFFFFF#32 = 0x20#32 ∧ G 0x80000000#32 = 0x10#32 ∧
    G 0x7FFFFFFF#32 = 0x30#32 ∧ G 0x00010000#32 = 0x00200000#32 := by decide
/-- V41, V42. -/
theorem test_little_endian :
    le32 0x01#8 0x23#8 0x45#8 0x67#8 = 0x67452301#32 ∧
    st32 0x36A5C38F#32 = #v[0x8F#8, 0xC3#8, 0xA5#8, 0x36#8] := by decide
/-- The layout of the plaintext of V2: its words before step 2. -/
theorem test_block_words :
    quadOfBytes #v[0x02#8, 0x13#8, 0x24#8, 0x35#8, 0x46#8, 0x57#8, 0x68#8, 0x79#8, 0x8A#8, 0x9B#8, 0xAC#8, 0xBD#8,
      0xCE#8, 0xDF#8, 0xE0#8, 0xF1#8] =
      { a := 0x35241302#32, b := 0x79685746#32, c := 0xBDAC9B8A#32, d := 0xF1E0DFCE#32 } := by decide
/-- 10_state.md R31, entries 1 and 43. -/
theorem test_S0 : S0[1] = 0x5618CB1C#32 ∧ S0[43] = 0x4B32C376#32 := by decide +kernel
/-- 00_scope.md R9: the two counts that R9 derives. -/
theorem test_parameters : 44 = 2 * Config.rounds + 4 ∧ Config.ksIter = 3 * 44 := by decide

/-! ### The key schedule and the block functions -/

/-- V10. -/
theorem test_keyExpand_zero :
    (keyExpand zeros16)[0] = 0x2A66311C#32 ∧ (keyExpand zeros16)[1] = 0x9B17852D#32 ∧
    (keyExpand zeros16)[43] = 0x4B38AC83#32 := by decide +kernel

def keyV2 : Bytes16 :=
  #v[0x01#8, 0x23#8, 0x45#8, 0x67#8, 0x89#8, 0xAB#8, 0xCD#8, 0xEF#8, 0x01#8, 0x12#8, 0x23#8, 0x34#8, 0x45#8, 0x56#8,
    0x67#8, 0x78#8]
def plainV2 : Bytes16 :=
  #v[0x02#8, 0x13#8, 0x24#8, 0x35#8, 0x46#8, 0x57#8, 0x68#8, 0x79#8, 0x8A#8, 0x9B#8, 0xAC#8, 0xBD#8, 0xCE#8, 0xDF#8,
    0xE0#8, 0xF1#8]
def cipherV2 : Bytes16 :=
  #v[0x52#8, 0x4E#8, 0x19#8, 0x2F#8, 0x47#8, 0x15#8, 0xC6#8, 0x23#8, 0x1F#8, 0x51#8, 0xF6#8, 0x36#8, 0x7E#8, 0xA4#8,
    0x3F#8, 0x18#8]

/-- V1, V2: the published vectors. -/
theorem test_encBlock_V1 :
    encBlock (keyExpand zeros16) zeros16 =
      #v[0x8F#8, 0xC3#8, 0xA5#8, 0x36#8, 0x56#8, 0xB1#8, 0xF7#8, 0x78#8, 0xC1#8, 0x29#8, 0xDF#8, 0x4E#8, 0x98#8, 0x48#8,
        0xA4#8, 0x1E#8] := by decide +kernel
theorem test_encBlock_V2 : encBlock (keyExpand keyV2) plainV2 = cipherV2 := by decide +kernel
/-- V61. -/
theorem test_decBlock_V61 : decBlock (keyExpand keyV2) cipherV2 = plainV2 := by decide +kernel
/-- V53 and V64: every round key distinct, so that a wrong index shows. -/
theorem test_distinct_round_keys :
    encBlock (Vector.ofFn fun i : Fin 44 => BitVec.ofNat 32 i.val) (Vector.ofFn fun i : Fin 16 => BitVec.ofNat 8 i.val) =
      #v[0xBA#8, 0x5B#8, 0xF9#8, 0x45#8, 0x9B#8, 0x08#8, 0x8D#8, 0x68#8, 0x55#8, 0x96#8, 0xFA#8, 0xF5#8, 0x7F#8, 0x6F#8,
        0x3D#8, 0x42#8] ∧
    decBlock (Vector.ofFn fun i : Fin 44 => BitVec.ofNat 32 i.val) (Vector.ofFn fun i : Fin 16 => BitVec.ofNat 8 i.val) =
      #v[0x19#8, 0xC4#8, 0x97#8, 0x9A#8, 0xEC#8, 0xE1#8, 0x85#8, 0xCD#8, 0x28#8, 0xC7#8, 0xF1#8, 0x40#8, 0x79#8, 0xF0#8,
        0x01#8, 0x53#8] := by decide +kernel
/-- V52: counts 0 and 16, and a doubling that wraps. -/
theorem test_encBlock_V52 :
    encBlock (Vector.replicate 44 0#32)
      #v[0x78#8, 0x56#8, 0x34#8, 0x12#8, 0xFF#8, 0xFF#8, 0xFF#8, 0xFF#8, 0xF0#8, 0xDE#8, 0xBC#8, 0x9A#8, 0x00#8, 0x00#8,
        0x00#8, 0x80#8] =
      #v[0x6D#8, 0xF7#8, 0x7B#8, 0x65#8, 0x63#8, 0x0D#8, 0x6B#8, 0x46#8, 0xE1#8, 0xCF#8, 0x5A#8, 0xB4#8, 0x40#8, 0xC3#8,
        0xE9#8, 0xAA#8] := by decide +kernel

/-! ### One step of each command -/

/-- Program P3, step 6: `KSCHED 240, 16` on the reset BUF. -/
theorem test_ksched_last_offset :
    (nextOf (step (commanding 0x0010F001#32 State.reset))).map (fun t => (t.rkValid, t.err, t.rk[43])) =
      some (true, 0#4, 0x4B38AC83#32) := by decide +kernel
/-- V14: the length is checked before the offset (`KSCHED 250, 0`). -/
theorem test_ksched_length_first :
    (nextOf (step (commanding 0x0000FA01#32 State.reset))).map (fun t => (t.rkValid, t.err, t.errinfo)) =
      some (false, 1#4, 0#32) := by decide
/-- V50 in place at 0: all counts 0, the block stays zero. -/
theorem test_enc_success :
    (nextOf (step (commanding 0x00000002#32 keyed))).map (fun t => (t.buf, t.err)) = some ([], 0#4) := by decide +kernel
/-- Program P3, step 9: `src` is reported first although the regions would overlap. -/
theorem test_enc_src_reported_first :
    (nextOf (step (commanding 0x00FAF502#32 keyed))).map (fun t => (t.err, t.errinfo)) = some (3#4, 0xF5#32) := by decide
/-- 95_test_vectors.md, after P3: `ENC 8, 0` with a Cipher is refused. -/
theorem test_enc_partial_overlap :
    refusalOf (step (commanding 0x00080002#32 keyed)) = some (.partialOverlap 8 0) := by decide
/-- V62 to a disjoint place. -/
theorem test_dec_success :
    (nextOf (step (commanding 0x00201003#32 keyed))).map (fun t => (t.buf, t.err)) = some ([], 0#4) := by decide +kernel
/-- R232 for DEC: no Cipher, offsets not examined. -/
theorem test_dec_no_key :
    (nextOf (step (commanding 0x00FFFF03#32 State.reset))).map (fun t => (t.err, t.errinfo)) = some (2#4, 0#32) := by
  decide
/-- 44_system.md R210. -/
theorem test_clr :
    (nextOf (step (commanding 0x00000004#32 keyed))).map (fun t => (t.rkValid, t.rk[43], t.err)) =
      some (false, 0#32, 0#4) := by decide +kernel
/-- Program P3, step 12. -/
theorem test_illegal :
    (nextOf (step (commanding 0x01000002#32 keyed))).map (fun t => (t.rkValid, t.err, t.errinfo)) =
      some (true, 4#4, 0x01000002#32) := by decide
theorem test_withFetchWord_runs_the_row :
    (nextOf (step (State.reset.withFetchWord 32 0x00000001))).map (fun t => (t.err, t.pending)) =
      some (1#4, []) := by decide

/-! ### The port -/

/-- Program P4, step 2: the word's low byte goes to the lowest index. -/
theorem test_window_write :
    (nextOf (step (facing (.request (.write 0x104#9 0x89674523#32)) State.reset))).map (·.buf) =
      some [(4, 0x23#8), (5, 0x45#8), (6, 0x67#8), (7, 0x89#8)] := by decide
/-- Program P3, step 7: STATUS with `ERR = 3` and `RK_VALID = 1`. -/
theorem test_status_read :
    (nextOf (step (facing (.request (.read 0x004#9)) { keyed with err := 3#4 }))).map (·.responses) =
      some [{ err := false, rdata := 0x31#32 }] := by decide
/-- Program P1, step 1. -/
theorem test_blksize_read :
    (nextOf (step (facing (.request (.read 0x00C#9)) State.reset))).map (·.responses) =
      some [{ err := false, rdata := 16#32 }] := by decide
/-- Program P3, steps 17, 20, 21, 23 (reads) and 18, 19, 22 (writes); and four accesses that are none. -/
theorem test_bus_errors :
    [0x000#9, 0x010#9, 0x102#9, 0x0FC#9].all (fun a => busError (.read a)) = true ∧
    [0x004#9, 0x00C#9, 0x1FD#9].all (fun a => busError (.write a 0#32)) = true ∧
    [0x004#9, 0x008#9, 0x00C#9, 0x1FC#9].any (fun a => busError (.read a)) = false ∧
    [0x000#9, 0x100#9].any (fun a => busError (.write a 0#32)) = false := by decide
/-- 70_reset_and_hazards.md R270. -/
theorem test_reset_event :
    (nextOf (step (facing (.reset none) { keyed with err := 3#4, buf := [(7, 1#8)] }))).map
      (fun t => (t.rkValid, t.err, t.buf, t.responses)) = some (false, 0#4, [], []) := by decide
/-- 30_encoding.md R99: an offset that is not a multiple of 4 has no expansion; `GET 240, 4` is program P3, step 16. -/
theorem test_asm_expansions :
    Asm.expand (.put 2 [1#8, 2#8, 3#8, 4#8]) = none ∧
    Asm.expand (.get 240 4) = some [.read 0x1F0#9, .read 0x1F4#9, .read 0x1F8#9, .read 0x1FC#9] ∧
    Asm.expand (.new 3) = some [.write 0x000#9 0x00100301#32] ∧
    Asm.expand (.encip 16) = some [.write 0x000#9 0x00101002#32] ∧
    Asm.expand (.put 0 [1#8, 0x23#8, 0x45#8, 0x67#8]) = some [.write 0x100#9 0x67452301#32] := by decide
/-- A write of the reset value removes the entry. -/
theorem test_memory_canonical : Memory.write [(3, 1#8), (5, 2#8)] 3 0#8 = [(5, 2#8)] := by decide

/-! ### Witnesses: states and operands that meet the hypotheses of the statements -/

theorem witness_DecodeUndoesEncode :
    (Instr.ksched 255 65535).WellFormed ∧ (Instr.enc 255 0).WellFormed ∧ (Instr.dec 0 255).WellFormed ∧
    Instr.clr.WellFormed := by decide
theorem witness_EncodeUndoesDecode :
    decode 0xFFFFFF01#32 = .ok (.ksched 255 65535) ∧ decode 0x00FF0002#32 = .ok (.enc 255 0) := by decide
theorem witness_DecodingIsByMatchAndMask :
    0xFFFFFF01#32 &&& 0x000000FF#32 = 0x00000001#32 ∧ 0x00FFFF02#32 &&& 0xFF0000FF#32 = 0x00000002#32 ∧
    0x00FFFF03#32 &&& 0xFF0000FF#32 = 0x00000003#32 ∧
    (0x01000002#32 &&& 0x000000FF#32 ≠ 0x00000001#32 ∧ 0x01000002#32 &&& 0xFF0000FF#32 ≠ 0x00000002#32 ∧
      0x01000002#32 &&& 0xFF0000FF#32 ≠ 0x00000003#32 ∧ (0x01000002#32 : Word) ≠ 0x00000004#32) := by decide
theorem witness_IllegalWordsRaiseIllegalCmd :
    (commanding 0#32 keyed).pending = .request (.write 0x000#9 0#32) :: [] ∧
    ((0x00000000#32).toNat % 16 = 0 ∧ 5 ≤ (0x00000005#32).toNat % 16 ∧ 5 ≤ (0x0000000F#32).toNat % 16) ∧
    ((0x00000011#32).toNat % 16 = 1 ∧ (0x00000011#32).toNat / 2 ^ 4 % 16 ≠ 0) ∧
    ((0x01000002#32).toNat % 16 = 2 ∧ (0x01000002#32).toNat / 2 ^ 24 ≠ 0) ∧
    ((0x00000023#32).toNat % 16 = 3 ∧ (0x00000023#32).toNat / 2 ^ 4 % 16 ≠ 0) ∧
    ((0x80000004#32).toNat % 16 = 4 ∧ (0x80000004#32).toNat / 2 ^ 4 ≠ 0) := by decide
theorem witness_XorSetsTheBitsThatDiffer :
    0 < 32 ∧ 31 < 32 ∧ (xor32 0x80000001#32 1#32).getLsbD 0 = false ∧ (xor32 0x80000001#32 1#32).getLsbD 31 = true := by
  decide
theorem witness_BlocksAreLittleEndian : 3 < 4 ∧ (st32 0x36A5C38F#32)[3] = 0x36#8 := by decide
theorem witness_RotationsMoveEveryBit : 31 < 32 ∧ 1 ≤ 31 ∧ (rotl32 1#32 31).getLsbD 31 = true := by decide
theorem witness_RotationsUndoEachOther : 31 < 32 ∧ rotl32 1#32 31 = 0x80000000#32 := by decide
theorem witness_StaticTableIsTheLinearRecurrence : 42 + 1 < 44 ∧ 43 < 44 := by decide
theorem witness_KeyExpandRunsTheMixingIterations : 131 < 132 ∧ 131 % 44 = 43 ∧ 131 % 4 = 3 := by decide
theorem witness_KschedChecksAndEffect :
    (15 ≠ 16 ∧ 17 ≠ 16) ∧ (16 = 16 ∧ 240 < 241) ∧
    (240 ≤ 240 ∧ ∀ (j : Nat) (_ : j < 16), State.reset.buf.read (240 + j) = zeros16[j]) := by decide
theorem witness_InvalidKeySizeExactlyWhenNot16 : 15 ≠ 16 ∧ 65535 ≠ 16 := by decide
theorem witness_EncBlockRunsTheRounds : 0 < 20 ∧ 19 < 20 := by decide
theorem witness_DecBlockRunsTheRoundsBackwards : 0 < 20 ∧ 19 < 20 := by decide
/-- Each clause of `BlockCommand` at a boundary; the last at the last legal offsets, in place and disjoint. -/
theorem witness_EncChecksAndEffect :
    State.reset.rkValid = false ∧ (keyed.rkValid = true ∧ 240 < 241) ∧ (keyed.rkValid = true ∧ 240 ≤ 240 ∧ 240 < 241) ∧
    (keyed.rkValid = true ∧ 225 ≤ 240 ∧ 240 ≤ 240 ∧ 240 ≠ 225 ∧ 240 < 225 + 16 ∧ 225 < 240 + 16) ∧
    (keyed.buf.wf = true ∧ keyed.rkValid = true ∧ 224 ≤ 240 ∧ 240 ≤ 240 ∧ 224 + 16 ≤ 240 ∧
      ∀ (j : Nat) (_ : j < 16), keyed.buf.read (224 + j) = zeros16[j]) := by decide
theorem witness_DecChecksAndEffect :
    State.reset.rkValid = false ∧ (keyed.rkValid = true ∧ 240 < 255) ∧ (keyed.rkValid = true ∧ 0 ≤ 240 ∧ 240 < 255) ∧
    (keyed.rkValid = true ∧ 1 ≤ 240 ∧ 0 ≤ 240 ∧ 0 ≠ 1 ∧ 0 < 1 + 16 ∧ 1 < 0 + 16) ∧
    (keyed.buf.wf = true ∧ keyed.rkValid = true ∧ 240 ≤ 240 ∧
      ∀ (j : Nat) (_ : j < 16), keyed.buf.read (240 + j) = zeros16[j]) := by decide
theorem witness_NoKeyExactlyWhenNoCipher :
    State.reset.rkValid = false ∧
    (nextOf (exec (.enc 255 255) State.reset)).map (·.err) = some 2#4 ∧
    (nextOf (exec (.dec 255 255) State.reset)).map (·.err) = some 2#4 := by decide
theorem witness_PartialOverlapIsTheOnlyRefusal :
    refusalOf (exec (.enc 15 0) keyed) = some (.partialOverlap 15 0) ∧
    refusalOf (exec (.dec 0 1) keyed) = some (.partialOverlap 0 1) := by decide
theorem witness_InPlaceGivesTheDisjointOutput :
    keyed.buf.wf = true ∧ keyed.rkValid = true ∧ 240 ≤ 240 ∧ 224 ≤ 240 ∧ 224 + 16 ≤ 240 := by decide
theorem witness_DecryptUndoesEncrypt : keyed.buf.wf = true ∧ keyed.rkValid = true ∧ 240 ≤ 240 := by decide
theorem witness_ClrDiscardsTheCipher :
    (∃ t, exec .clr keyed = .next t) ∧
    ∃ t, State.reset.rkValid = false ∧ step State.reset = .next t ∧
      ¬ ∃ koff, koff ≤ 240 ∧ Runs State.reset (.ksched koff 16) :=
  ⟨⟨_, rfl⟩, _, rfl, rfl, fun ⟨_, _, _, _, h, _⟩ => nomatch h⟩
theorem witness_ErrorsHaveNoPartialEffect :
    ∃ t, step (commanding 0#32 keyed) = .next t ∧ t.err ≠ 0#4 := ⟨_, rfl, by decide⟩
theorem witness_EveryCommandReportsItsOutcome :
    (∃ t, step (commanding 0x000F0001#32 keyed) = .next t) ∧
    ∃ t, step (facing (.request (.read 0x000#9)) keyed) = .next t := ⟨⟨_, rfl⟩, _, rfl⟩
theorem witness_StepRunsTheDecodedCommand :
    decode 0x00000004#32 = .ok .clr ∧ (∃ t, exec .clr { commanding 0x00000004#32 keyed with pending := [] } = .next t) ∧
    decode 0x00080002#32 = .ok (.enc 8 0) ∧
    ∃ r, exec (.enc 8 0) { commanding 0x00080002#32 keyed with pending := [] } = .refused r :=
  ⟨by decide, ⟨_, rfl⟩, by decide, _, rfl⟩
theorem witness_PlacedWordRunsAtTheNextStep :
    decodeTableWord 32 0x00000004 = some .clr ∧ decodeTableWord 32 0x00080002 = some (.enc 8 0) := by decide
theorem witness_BusErrorsChangeNothing :
    isBusError (.read 0x0FC#9) = true ∧ isBusError (.write 0x004#9 0#32) = true ∧ isBusError (.write 0x000#9 0#32) = false ∧
    (∃ t, step (facing (.request (.write 0x100#9 0#32)) keyed) = .next t) :=
  ⟨by decide, by decide, by decide, _, rfl⟩
theorem witness_ReadsAnswerTheAddressMap :
    isBusError (.read 0x000#9) = true ∧ isBusError (.read 0x1FC#9) = false ∧ (0x004#9).toNat = 0x004 ∧
    (0x008#9).toNat = 0x008 ∧ (0x00C#9).toNat = 0x00C ∧ (0x100#9).toNat = 0x100 + 4 * 0 ∧
    (0x1FC#9).toNat = 0x100 + 4 * 63 := by decide
theorem witness_BlockSizeIsAlways16 :
    (facing (.request (.read 0x00C#9)) keyed).pending = .request (.read 0x00C#9) :: [] := by decide
theorem witness_WindowWritesStoreFourBytes :
    (facing (.request (.write 0x1FC#9 1#32)) keyed).pending = .request (.write 0x1FC#9 1#32) :: [] ∧
    (0x1FC#9).toNat = 0x100 + 4 * 63 ∧ keyed.buf.wf = true := by decide
theorem witness_ResetZeroesTheEngine :
    (facing (.reset (some (.read 0x004#9))) keyed).pending = .reset (some (.read 0x004#9)) :: [] := by decide
theorem witness_OnlyKschedClrAndResetTouchTheCipher :
    (∃ t, step (commanding 0x0010F001#32 keyed) = .next t) ∧ Runs (commanding 0x0010F001#32 keyed) (.ksched 240 16) ∧
    Runs (commanding 0x00000004#32 keyed) .clr ∧ Resets (facing (.reset none) keyed) ∧
    Runs (commanding 0x00000002#32 State.reset) (.enc 0 0) :=
  ⟨⟨_, rfl⟩, ⟨_, _, rfl, by decide⟩, ⟨_, _, rfl, by decide⟩, ⟨_, _, rfl⟩, ⟨_, _, rfl, by decide⟩⟩
theorem witness_OnlyTheseStepsWriteBuf :
    ∃ t, step (facing (.request (.write 0x1FC#9 1#32)) keyed) = .next t ∧ t.buf.read 252 ≠ keyed.buf.read 252 :=
  ⟨_, rfl, by decide⟩
theorem witness_OnlyHazardH3Stops : HazardH3 (commanding 0x000F0002#32 keyed) ∧ Continues State.reset :=
  ⟨⟨_, 15, 0, _, rfl, by decide⟩, _, rfl⟩
theorem witness_TransactionsDependOnTheEngineOnly :
    SameEngine keyed { keyed with responses := [{ err := true, rdata := 0#32 }] } ∧
    ∃ t, step (facing (.reset none) keyed) = .next t := ⟨⟨rfl, rfl, rfl, rfl, rfl⟩, _, rfl⟩
theorem witness_RoundKeysAreNotReadable :
    (∃ t, step (facing (.request (.read 0x100#9)) keyed) = .next t) ∧
    ¬ ∃ dst src, Runs (facing (.request (.read 0x100#9)) keyed) (.enc dst src) ∨
      Runs (facing (.request (.read 0x100#9)) keyed) (.dec dst src) :=
  ⟨⟨_, rfl⟩, fun ⟨_, _, h⟩ => h.elim (fun ⟨_, _, h, _⟩ => nomatch h) (fun ⟨_, _, h, _⟩ => nomatch h)⟩
/-- The state after a KSCHED that failed meets the invariant with something in every part of it. -/
theorem witness_StepKeepsInv :
    ∃ s : State, Inv s ∧ s.err = 1#4 ∧ s.buf = [(255, 1#8)] ∧ ∃ t, step s = .next t :=
  ⟨{ State.reset with err := 1#4, errinfo := 15#32, buf := [(255, 1#8)] },
    ⟨by decide, ⟨by decide, fun _ => rfl⟩, .inr (.inl (by decide))⟩, rfl, rfl, _, rfl⟩
theorem witness_EveryRequestIsAnsweredInOrder :
    (∃ t : State, Host.Core.run Sys2Proof.core 1 (commanding 0#32 keyed) = .next t) ∧
    ∀ k (t : State), k < 1 → Host.Core.run Sys2Proof.core k State.reset = .next t → ¬ HazardH3 t := by
  refine ⟨⟨_, rfl⟩, fun k t hk h => ?_⟩
  obtain rfl : k = 0 := by omega
  obtain rfl := eq_of_next h
  rintro ⟨_, _, _, _, h, _⟩
  exact nomatch h
theorem witness_PutStoresItsBytes :
    Asm.expand (.put 252 [1#8, 2#8, 3#8, 4#8]) = some [.write 0x1FC#9 0x04030201#32] ∧ keyed.buf.wf = true ∧
    (facing (.request (.write 0x1FC#9 0x04030201#32)) keyed).pending =
      [Request.write 0x1FC#9 0x04030201#32].map HostEvent.request ++ [] := by decide
theorem witness_GetAnswersItsWords :
    Asm.expand (.get 252 1) = some [.read 0x1FC#9] ∧
    (facing (.request (.read 0x1FC#9)) keyed).pending = [Request.read 0x1FC#9].map HostEvent.request ++ [] := by decide

end Sys2Proof.Tests
end

/-! The state's statements: the table S0, the placed command word, the invariant of the reachable states, and which
steps report, touch the Cipher, write BUF or depend on more than the engine. -/

namespace Sys2Proof.Machine

open Sys2Proof.Claims

/-! ### The constant table S0 -/

@[simp] theorem S0_getElem (i : Nat) (hi : i < 44) : S0[i] = s0Word i := by
  simp [S0]

theorem s0Word_toNat (i : Nat) : (s0Word i).toNat = (0xB7E15163 + i * 0x9E3779B9) % 2 ^ 32 := by
  induction i with
  | zero => rfl
  | succ i ih =>
    have hstep : (s0Word (i + 1)).toNat = ((s0Word i).toNat + 0x9E3779B9) % 2 ^ 32 := BitVec.toNat_add _ _
    omega

/-- Settles O11: the table's words are `s0Word`, whose recursion is the recurrence and gives the closed form. -/
theorem staticTableIsTheLinearRecurrence : Obligations.StaticTableIsTheLinearRecurrence := by
  refine ⟨S0_getElem 0 (by decide), fun i hi => ?_, fun i hi => ?_⟩
  · rw [S0_getElem, S0_getElem]
    rfl
  · rw [S0_getElem, s0Word_toNat]

/-! ### The placed command word -/

theorem decodeTableWord_eq_some {nbits w : Nat} {i : Instr} (h : decodeTableWord nbits w = some i) :
    decode (tableWord nbits w) = .ok i := by
  unfold decodeTableWord at h
  split at h
  · next j hd => rw [hd, Option.some.inj h]
  · exact nomatch h

/-- Once the placed word is taken, the state is again what it was before the word was placed. -/
theorem step_withFetchWord (s : State) {nbits w : Nat} {i : Instr} (h : decodeTableWord nbits w = some i) :
    step (s.withFetchWord nbits w) = thenRespond writeResponse (exec i s) :=
  step_command (withFetchWord_pending s nbits w) (decodeTableWord_eq_some h)

/-- Settles O28: the step is the command followed by the answer to the write. -/
theorem placedWordRunsAtTheNextStep : Obligations.PlacedWordRunsAtTheNextStep := by
  intro s nbits w i hw
  rw [step_withFetchWord s hw]
  constructor
  · intro t ht
    rw [ht]
    rfl
  · intro r hr
    rw [hr]
    rfl

/-! ### Bounds on decoded operands and on window words -/

/-- No word spells an operand outside its field (spec/30_encoding.md R100). -/
theorem wellFormed_of_decode {c : Word} {i : Instr} (h : decode c = .ok i) : i.WellFormed := by
  unfold decode at h
  split at h
  · split_ifs at h
    cases h
    exact (wellFormed_ksched _ _).2 ⟨field_lt c 8 8, field_lt c 16 16⟩
  · split_ifs at h
    cases h
    exact (wellFormed_enc _ _).2 ⟨field_lt c 16 8, field_lt c 8 8⟩
  · split_ifs at h
    cases h
    exact (wellFormed_dec _ _).2 ⟨field_lt c 16 8, field_lt c 8 8⟩
  · split_ifs at h
    cases h
    exact wellFormed_clr
  · exact nomatch h

theorem ksched_operands_lt {c : Word} {koff klen : Nat} (h : decode c = .ok (.ksched koff klen)) :
    koff < 256 ∧ klen < 65536 :=
  (wellFormed_ksched koff klen).1 (wellFormed_of_decode h)

theorem block_operands_lt {c : Word} {dst src : Nat}
    (h : decode c = .ok (.enc dst src) ∨ decode c = .ok (.dec dst src)) : dst < 256 ∧ src < 256 := by
  rcases h with h | h
  · exact (wellFormed_enc dst src).1 (wellFormed_of_decode h)
  · exact (wellFormed_dec dst src).1 (wellFormed_of_decode h)

theorem not_inRange_iff {off : Nat} : ¬ inRange off ↔ 240 < off := by
  rw [inRange_iff, not_le]

theorem addr_aligned_of_not_busError {r : Request} (h : busError r = false) : r.addr.toNat % 4 = 0 := by
  unfold busError at h
  rw [Bool.or_eq_false_iff] at h
  simpa [misaligned] using h.1

/-- A window word lies within BUF: the window ends with the address space (spec/20_memory.md R50). -/
theorem window_word_le {r : Request} {k : Nat} (h : busError r = false) (hk : portAt r.addr = .window k) :
    k + 4 ≤ 256 := by
  have haligned := addr_aligned_of_not_busError h
  have haddr := portAt_window hk
  have hlt := r.addr.isLt
  omega

/-! ### The effect of a command -/

/-- What a write to `CMD` does to the engine: an error entry, or the effect of one of the four commands. -/
theorem commandWrite_effect {c : Word} {s u : State} (h : commandWrite c s = .next u) :
    (∃ e info, u = raiseError e info s) ∨
    (∃ koff, decode c = .ok (.ksched koff 16) ∧ koff ≤ 240 ∧
      u = complete (installKey (keyExpand (memRead16 s.buf koff)) s)) ∨
    (∃ (dst src : Nat) (out : Bytes16), (decode c = .ok (.enc dst src) ∨ decode c = .ok (.dec dst src)) ∧
      s.rkValid = true ∧ src ≤ 240 ∧ dst ≤ 240 ∧ u = complete (storeBytes dst out s)) ∨
    (decode c = .ok .clr ∧ u = complete (discardKey s)) := by
  rcases commandWrite_next h with
    ⟨_, _, e⟩ | ⟨_, _, _, _, e⟩ | ⟨_, _, _, e⟩ | ⟨koff, hd, ho, e⟩ | ⟨dst, src, f, hd, hb⟩ | ⟨hd, e⟩
  · exact .inl ⟨_, _, e⟩
  · exact .inl ⟨_, _, e⟩
  · exact .inl ⟨_, _, e⟩
  · exact .inr (.inl ⟨koff, hd, (inRange_iff koff).1 ho, e⟩)
  · rcases blockCommand_next hb with ⟨_, e⟩ | ⟨_, _, e⟩ | ⟨_, _, _, e⟩ | ⟨hv, hs, hdst, _, e⟩
    · exact .inl ⟨_, _, e⟩
    · exact .inl ⟨_, _, e⟩
    · exact .inl ⟨_, _, e⟩
    · exact .inr (.inr (.inl ⟨dst, src, _, hd.imp And.left And.left, hv, (inRange_iff src).1 hs,
        (inRange_iff dst).1 hdst, e⟩))
  · exact .inr (.inr (.inr ⟨hd, e⟩))

/-! ### The invariant -/

/-- Settles O40: nothing is listed in BUF, RK is all zero, and nothing is reported. -/
theorem resetHasInv : Obligations.ResetHasInv :=
  ⟨reset_buf_wf, ⟨nofun, fun _ => rfl⟩, .inl ⟨rfl, rfl⟩⟩

theorem reportInv_invalidKeySize {klen : Nat} (s : State) (h : klen ≠ 16) (hlt : klen < 65536) :
    ReportInv (raiseError .invalidKeySize (BitVec.ofNat 32 klen) s) := by
  have hinfo : (BitVec.ofNat 32 klen).toNat = klen := Nat.mod_eq_of_lt (by omega)
  exact .inr (.inl ⟨rfl, by simpa only [raiseError_errinfo, hinfo] using ⟨hlt, h⟩⟩)

theorem reportInv_bufRange {off : Nat} (s : State) (h : ¬ inRange off) (hlt : off < 256) :
    ReportInv (raiseError .bufRange (BitVec.ofNat 32 off) s) := by
  have hinfo : (BitVec.ofNat 32 off).toNat = off := Nat.mod_eq_of_lt (by omega)
  rw [not_inRange_iff] at h
  exact .inr (.inr (.inr (.inl ⟨rfl, by simpa only [raiseError_errinfo, hinfo] using ⟨h, hlt⟩⟩)))

theorem reportInv_complete (s : State) : ReportInv (complete s) := .inl ⟨rfl, rfl⟩

/-- Whatever was reported before, a write to `CMD` leaves a legal report. -/
theorem commandWrite_reportInv {c : Word} {s u : State} (h : commandWrite c s = .next u) : ReportInv u := by
  rcases commandWrite_next h with
    ⟨why, hd, rfl⟩ | ⟨koff, klen, hd, hk, rfl⟩ | ⟨koff, hd, ho, rfl⟩ | ⟨_, _, _, rfl⟩ | ⟨dst, src, f, hd, hb⟩ | ⟨_, rfl⟩
  · exact .inr (.inr (.inr (.inr ⟨rfl, why, hd⟩)))
  · exact reportInv_invalidKeySize s hk (ksched_operands_lt hd).2
  · exact reportInv_bufRange s ho (ksched_operands_lt hd).1
  · exact reportInv_complete _
  · obtain ⟨hdst, hsrc⟩ := block_operands_lt (hd.imp And.left And.left)
    rcases blockCommand_next hb with ⟨_, rfl⟩ | ⟨_, ho, rfl⟩ | ⟨_, _, ho, rfl⟩ | ⟨_, _, _, _, rfl⟩
    · exact .inr (.inr (.inl ⟨rfl, rfl⟩))
    · exact reportInv_bufRange s ho hsrc
    · exact reportInv_bufRange s ho hdst
    · exact reportInv_complete _
  · exact reportInv_complete _

theorem cipherInv_installKey (key : Bytes16) (s : State) : CipherInv (installKey (keyExpand key) s) :=
  ⟨fun _ => ⟨key, rfl⟩, nofun⟩

theorem cipherInv_discardKey (s : State) : CipherInv (discardKey s) :=
  ⟨nofun, fun _ => rfl⟩

theorem inv_storeBytes {n k : Nat} {s : State} (h : Inv s) (bytes : Vector Byte n) (hk : k + n ≤ 256) :
    Inv (storeBytes k bytes s) :=
  ⟨memWrite_wf h.buf bytes hk, h.cipher, h.report⟩

/-- A command stores within BUF, and it replaces the Cipher by an expanded key or by none. -/
theorem inv_commandWrite {c : Word} {s u : State} (hs : Inv s) (h : commandWrite c s = .next u) : Inv u := by
  have hreport := commandWrite_reportInv h
  rcases commandWrite_effect h with
    ⟨_, _, rfl⟩ | ⟨koff, _, _, rfl⟩ | ⟨dst, _, out, _, _, _, hdst, rfl⟩ | ⟨_, rfl⟩
  · exact ⟨hs.buf, hs.cipher, hreport⟩
  · refine ⟨?_, cipherInv_installKey _ s, hreport⟩
    rw [complete_buf, installKey_buf]
    exact hs.buf
  · exact ⟨(inv_storeBytes hs out (by omega)).buf, hs.cipher, hreport⟩
  · exact ⟨hs.buf, cipherInv_discardKey s, hreport⟩

/-- The invariant says nothing of what the host does next. -/
theorem inv_withPending {s : State} (h : Inv s) (rest : List HostEvent) : Inv { s with pending := rest } :=
  ⟨h.buf, h.cipher, h.report⟩

/-- The invariant says nothing of what the host has been told. -/
theorem inv_respond {s : State} (h : Inv s) (r : Response) : Inv (respond r s) := ⟨h.buf, h.cipher, h.report⟩

theorem inv_resetEngine (s : State) : Inv (resetEngine s) :=
  ⟨resetHasInv.buf, resetHasInv.cipher, resetHasInv.report⟩

/-- Settles O39: by the kinds of step; only a window write, a reset and a command touch the engine. -/
theorem stepKeepsInv : Obligations.StepKeepsInv := by
  intro s t hs h
  rcases step_next h with
    ⟨_, rfl⟩ | ⟨_, rest, _, rfl⟩ | ⟨_, rest, _, _, rfl⟩ | ⟨_, rest, _, _, rfl⟩ | ⟨a, d, rest, k, _, hb, hk, rfl⟩ |
    ⟨c, rest, u, _, hu, rfl⟩
  · exact hs
  · exact inv_resetEngine _
  · exact inv_respond (inv_withPending hs rest) _
  · exact inv_respond (inv_withPending hs rest) _
  · exact inv_respond (inv_storeBytes (inv_withPending hs rest) _ (window_word_le hb hk)) _
  · exact inv_respond (inv_commandWrite (inv_withPending hs rest) hu) _

/-! ### The report of a command -/

theorem blockCommand_report {f : RoundKeys → Bytes16 → Bytes16} {c : Word} {dst src : Nat} {s u : State}
    (hd : decode c = .ok (.enc dst src) ∨ decode c = .ok (.dec dst src)) (h : blockCommand f dst src s = .next u) :
    (u.err, u.errinfo) = report c s.rkValid := by
  have hreport : report c s.rkValid =
      if s.rkValid = false then (2#4, 0#32)
      else if 240 < src then (3#4, BitVec.ofNat 32 src)
      else if 240 < dst then (3#4, BitVec.ofNat 32 dst)
      else (0#4, 0#32) := by
    rcases hd with hd | hd <;> simp only [report, hd]
  rw [hreport]
  rcases blockCommand_next h with ⟨hv, rfl⟩ | ⟨hv, hs, rfl⟩ | ⟨hv, hs, ho, rfl⟩ | ⟨hv, hs, hdst, _, rfl⟩
  · simp [hv]
  · simp [hv, not_inRange_iff.1 hs]
  · simp [hv, not_lt.2 ((inRange_iff src).1 hs), not_inRange_iff.1 ho]
  · simp [hv, not_lt.2 ((inRange_iff src).1 hs), not_lt.2 ((inRange_iff dst).1 hdst)]

/-- The code and the information word are those of the first failing check (spec/60_exceptions.md R235). -/
theorem commandWrite_report {c : Word} {s u : State} (h : commandWrite c s = .next u) :
    (u.err, u.errinfo) = report c s.rkValid := by
  rcases commandWrite_next h with
    ⟨why, hd, rfl⟩ | ⟨koff, klen, hd, hk, rfl⟩ | ⟨koff, hd, ho, rfl⟩ | ⟨koff, hd, ho, rfl⟩ |
    ⟨dst, src, f, hd, hb⟩ | ⟨hd, rfl⟩
  · simp [report, hd, raiseIllegal]
  · simp [report, hd, hk]
  · simp [report, hd, not_inRange_iff.1 ho]
  · simp [report, hd, not_lt.2 ((inRange_iff koff).1 ho)]
  · exact blockCommand_report (hd.imp And.left And.left) hb
  · simp [report, hd]

/-- The next state of a write to `CMD`: the command's, with the write answered. -/
theorem step_commandWrite {s t : State} {c : Word} {rest : List HostEvent}
    (hp : s.pending = .request (.write 0x000#9 c) :: rest) (h : step s = .next t) :
    ∃ u, commandWrite c { s with pending := rest } = .next u ∧ t = respond writeResponse u := by
  rw [step_request hp, transact_command] at h
  exact thenRespond_next h

/-- Settles O25: a write to `CMD` by the command's own report; a bus error, a read and a window write enter none. -/
theorem everyCommandReportsItsOutcome : Obligations.EveryCommandReportsItsOutcome := by
  intro s t r rest hp h
  constructor
  · rintro c rfl
    obtain ⟨u, hu, rfl⟩ := step_commandWrite hp h
    exact (commandWrite_report hu :)
  · intro hr
    rcases step_next h with
      ⟨_, rfl⟩ | ⟨_, _, hp', _⟩ | ⟨_, _, _, _, rfl⟩ | ⟨_, _, _, _, rfl⟩ | ⟨_, _, _, _, _, _, _, rfl⟩ |
      ⟨c, _, _, hp', _, _⟩
    · exact ⟨rfl, rfl⟩
    · simp [hp] at hp'
    · exact ⟨rfl, rfl⟩
    · exact ⟨rfl, rfl⟩
    · exact ⟨rfl, rfl⟩
    · rw [hp] at hp'
      injection hp' with he _
      injection he with he
      exact absurd he (hr c)

/-! ### What touches the Cipher -/

/-- The next state of a step that takes the write of a command. -/
theorem step_runs {s t : State} {i : Instr} (hr : Runs s i) (h : step s = .next t) :
    ∃ rest u, exec i { s with pending := rest } = .next u ∧ t = respond writeResponse u := by
  obtain ⟨c, rest, hp, hd⟩ := hr
  rw [step_command hp hd] at h
  obtain ⟨u, hu, rfl⟩ := thenRespond_next h
  exact ⟨rest, u, hu, rfl⟩

theorem rkValid_of_ksched {s t : State} {koff : Nat} (ho : koff ≤ 240) (hr : Runs s (.ksched koff 16))
    (h : step s = .next t) : t.rkValid = true := by
  obtain ⟨rest, u, hu, rfl⟩ := step_runs hr h
  replace hu : execKsched koff 16 { s with pending := rest } = .next u := hu
  rcases execKsched_next koff 16 { s with pending := rest } with ⟨hk, _⟩ | ⟨_, hno, _⟩ | ⟨_, _, e⟩
  · exact absurd rfl hk
  · exact absurd ((inRange_iff koff).2 ho) hno
  · rw [e] at hu
    rw [eq_of_next hu]
    rfl

theorem rkValid_of_clr {s t : State} (hr : Runs s .clr) (h : step s = .next t) : t.rkValid = false := by
  obtain ⟨rest, u, hu, rfl⟩ := step_runs hr h
  rw [eq_of_next (t := complete (discardKey { s with pending := rest })) hu]
  rfl

theorem rkValid_of_reset {s t : State} (hr : Resets s) (h : step s = .next t) : t.rkValid = false := by
  obtain ⟨_, _, hp⟩ := hr
  rw [step_reset hp] at h
  rw [eq_of_next h]
  rfl

/-- Every other step leaves `RK_VALID` and RK as they are. -/
theorem cipher_unchanged {s t : State} (h : step s = .next t)
    (hk : ¬ ∃ koff, koff ≤ 240 ∧ Runs s (.ksched koff 16)) (hc : ¬ Runs s .clr) (hr : ¬ Resets s) :
    t.rkValid = s.rkValid ∧ t.rk = s.rk := by
  rcases step_next h with
    ⟨_, rfl⟩ | ⟨a, rest, hp, _⟩ | ⟨_, _, _, _, rfl⟩ | ⟨_, _, _, _, rfl⟩ | ⟨_, _, _, _, _, _, _, rfl⟩ |
    ⟨c, rest, u, hp, hu, rfl⟩
  · exact ⟨rfl, rfl⟩
  · exact absurd ⟨a, rest, hp⟩ hr
  · exact ⟨rfl, rfl⟩
  · exact ⟨rfl, rfl⟩
  · exact ⟨rfl, rfl⟩
  · rcases commandWrite_effect hu with
      ⟨_, _, rfl⟩ | ⟨koff, hd, ho, _⟩ | ⟨_, _, _, _, _, _, _, rfl⟩ | ⟨hd, _⟩
    · exact ⟨rfl, rfl⟩
    · exact absurd ⟨koff, ho, c, rest, hp, hd⟩ hk
    · exact ⟨rfl, rfl⟩
    · exact absurd ⟨c, rest, hp, hd⟩ hc

theorem noKey_of_block {s t : State} {dst src : Nat} (hv : s.rkValid = false)
    (hr : Runs s (.enc dst src) ∨ Runs s (.dec dst src)) (h : step s = .next t) : t.err = 2#4 ∧ t.buf = s.buf := by
  obtain ⟨f, rest, u, hu, rfl⟩ :
      ∃ f rest u, blockCommand f dst src { s with pending := rest } = .next u ∧ t = respond writeResponse u :=
    hr.elim (fun hr => ⟨encBlock, step_runs hr h⟩) (fun hr => ⟨decBlock, step_runs hr h⟩)
  rcases blockCommand_next hu with ⟨_, rfl⟩ | ⟨hv', _⟩ | ⟨hv', _⟩ | ⟨hv', _⟩
  · exact ⟨rfl, rfl⟩
  all_goals exact absurd (hv.symm.trans hv') Bool.false_ne_true

/-- Settles O34: one lemma per clause. -/
theorem onlyKschedClrAndResetTouchTheCipher : Obligations.OnlyKschedClrAndResetTouchTheCipher := fun _ _ h =>
  ⟨fun _ ho hr => rkValid_of_ksched ho hr h, fun hr => rkValid_of_clr hr h, fun hr => rkValid_of_reset hr h,
    cipher_unchanged h, fun _ _ hv hr => noKey_of_block hv hr h⟩

/-! ### What writes BUF -/

/-- A byte that MemWrite changes is one of those it stores to. -/
theorem mem_region_of_memWrite_ne {n : Nat} {m : Memory} {off k : Nat} {bytes : Vector Byte n}
    (h : (memWrite m off bytes).read k ≠ m.read k) : off ≤ k ∧ k < off + n := by
  by_contra hk
  exact h (memWrite_read_outside m off bytes (by omega))

/-- Settles O35: of the kinds of step only three store to BUF, and a store changes only the bytes of its region. -/
theorem onlyTheseStepsWriteBuf : Obligations.OnlyTheseStepsWriteBuf := by
  intro s t k h hne
  rcases step_next h with
    ⟨_, rfl⟩ | ⟨a, rest, hp, _⟩ | ⟨_, _, _, _, rfl⟩ | ⟨_, _, _, _, rfl⟩ | ⟨a, d, rest, j, hp, hb, hj, rfl⟩ |
    ⟨c, rest, u, hp, hu, rfl⟩
  · exact absurd rfl hne
  · exact .inl ⟨a, rest, hp⟩
  · exact absurd rfl hne
  · exact absurd rfl hne
  · rw [respond_buf, storeBytes_buf] at hne
    have haddr := portAt_window hj
    obtain ⟨hlo, hhi⟩ := mem_region_of_memWrite_ne hne
    exact .inr (.inl ⟨a, d, rest, hp, addr_aligned_of_not_busError hb, by omega, by omega⟩)
  · rcases commandWrite_effect hu with
      ⟨_, _, rfl⟩ | ⟨_, _, _, rfl⟩ | ⟨dst, src, _, hd, hv, hs, hdst, rfl⟩ | ⟨_, rfl⟩
    · exact absurd rfl hne
    · simp at hne
    · rw [respond_buf, complete_buf, storeBytes_buf] at hne
      have hruns : Runs s (.enc dst src) ∨ Runs s (.dec dst src) :=
        hd.imp (fun hd => ⟨c, rest, hp, hd⟩) (fun hd => ⟨c, rest, hp, hd⟩)
      exact .inr (.inr ⟨dst, src, hruns, hv, hs, hdst, mem_region_of_memWrite_ne hne⟩)
    · exact absurd rfl hne

/-! ### The host's view beside the engine -/

/-- The engine of `s` with another view of the host: other events to come, other responses given. -/
def State.withHost (s : State) (pending : List HostEvent) (responses : List Response) : State :=
  { s with pending := pending, responses := responses }

/-- States with the same engine differ in the view of the host only. -/
theorem eq_withHost_of_sameEngine {s s' : State} (h : SameEngine s s') : s' = s.withHost s'.pending s'.responses := by
  obtain ⟨hrk, hv, he, hi, hb⟩ := h
  cases s
  cases s'
  subst hrk hv he hi hb
  rfl

theorem sameEngine_withHost (s : State) (p : List HostEvent) (rs : List Response) : SameEngine s (s.withHost p rs) :=
  ⟨rfl, rfl, rfl, rfl, rfl⟩

theorem readData_withHost (s : State) (p : List HostEvent) (rs : List Response) (port : Port) :
    readData (s.withHost p rs) port = readData s port := by
  cases port <;> rfl

theorem blockCommand_withHost {f : RoundKeys → Bytes16 → Bytes16} {dst src : Nat} {s u : State}
    (h : blockCommand f dst src s = .next u) (p : List HostEvent) (rs : List Response) :
    blockCommand f dst src (s.withHost p rs) = .next (u.withHost p rs) := by
  unfold blockCommand at h ⊢
  rw [show (s.withHost p rs).rkValid = s.rkValid from rfl]
  split_ifs at h ⊢ <;> rw [eq_of_next h] <;> rfl

theorem execKsched_withHost {koff klen : Nat} {s u : State} (h : execKsched koff klen s = .next u)
    (p : List HostEvent) (rs : List Response) : execKsched koff klen (s.withHost p rs) = .next (u.withHost p rs) := by
  unfold execKsched at h ⊢
  split_ifs at h ⊢ <;> rw [eq_of_next h] <;> rfl

theorem exec_withHost {i : Instr} {s u : State} (h : exec i s = .next u) (p : List HostEvent) (rs : List Response) :
    exec i (s.withHost p rs) = .next (u.withHost p rs) := by
  cases i with
  | ksched koff klen => exact execKsched_withHost h p rs
  | enc dst src => exact blockCommand_withHost h p rs
  | dec dst src => exact blockCommand_withHost h p rs
  | clr =>
    rw [eq_of_next (t := complete (discardKey s)) h]
    rfl

theorem commandWrite_withHost {c : Word} {s u : State} (h : commandWrite c s = .next u)
    (p : List HostEvent) (rs : List Response) : commandWrite c (s.withHost p rs) = .next (u.withHost p rs) := by
  unfold commandWrite at h ⊢
  cases hd : decode c with
  | ok i =>
    rw [hd] at h
    exact exec_withHost h p rs
  | error why =>
    rw [hd] at h
    rw [eq_of_next h]
    rfl

theorem writeEffect_withHost {d : Word} {s u : State} {port : Port} (h : writeEffect d s port = .next u)
    (p : List HostEvent) (rs : List Response) : writeEffect d (s.withHost p rs) port = .next (u.withHost p rs) := by
  cases port with
  | cmd => exact commandWrite_withHost h p rs
  | window k =>
    rw [eq_of_next (t := storeBytes k (st32 d) s) h]
    rfl
  | _ =>
    rw [eq_of_next (t := s) h]
    rfl

/-- A command gives no response of its own. -/
theorem commandWrite_responses {c : Word} {s u : State} (h : commandWrite c s = .next u) :
    u.responses = s.responses := by
  rcases commandWrite_effect h with ⟨_, _, rfl⟩ | ⟨_, _, _, rfl⟩ | ⟨_, _, _, _, _, _, _, rfl⟩ | ⟨_, rfl⟩ <;> simp

theorem writeEffect_responses {d : Word} {s u : State} {port : Port} (h : writeEffect d s port = .next u) :
    u.responses = s.responses := by
  cases port with
  | cmd => exact commandWrite_responses h
  | window k => rw [eq_of_next (t := storeBytes k (st32 d) s) h, storeBytes_responses]
  | _ => rw [eq_of_next (t := s) h]

/-- A transaction appends its responses and does the same to the engine in every view of the host. -/
theorem transact_withHost {r : Request} {s t : State} (h : transact r s = .next t) :
    ∃ new, t.responses = s.responses ++ new ∧
      ∀ p rs, transact r (s.withHost p rs) = .next (t.withHost p (rs ++ new)) := by
  unfold transact at h ⊢
  split_ifs at h ⊢ with hb
  · rw [eq_of_next h]
    exact ⟨[errorResponse], rfl, fun _ _ => rfl⟩
  · cases r with
    | read a =>
      rw [eq_of_next (t := respond { err := false, rdata := readData s (portAt a) } s) h]
      refine ⟨[{ err := false, rdata := readData s (portAt a) }], rfl, fun p rs => ?_⟩
      simp only [readData_withHost]
      rfl
    | write a d =>
      obtain ⟨u, hu, rfl⟩ := thenRespond_next h
      refine ⟨[writeResponse], congrArg (· ++ [writeResponse]) (writeEffect_responses hu), fun p rs => ?_⟩
      simp only [writeEffect_withHost hu p rs]
      rfl

theorem applyEvent_withHost {e : HostEvent} {s t : State} (h : applyEvent e s = .next t) :
    ∃ new, t.responses = s.responses ++ new ∧
      ∀ p rs, applyEvent e (s.withHost p rs) = .next (t.withHost p (rs ++ new)) := by
  cases e with
  | request r => exact transact_withHost h
  | reset a =>
    rw [eq_of_next (t := resetEngine s) h]
    exact ⟨[], (List.append_nil _).symm, fun p rs => by rw [List.append_nil]; rfl⟩

/-- Settles O37: the second state is the first with another view of the host. -/
theorem transactionsDependOnTheEngineOnly : Obligations.TransactionsDependOnTheEngineOnly := by
  intro s s' t e rest rest' hengine hp hp' h
  rw [step_event hp] at h
  obtain ⟨new, hnew, hevent⟩ := applyEvent_withHost h
  have hs' : { s' with pending := rest' } = { s with pending := rest }.withHost rest' s'.responses := by
    rw [eq_withHost_of_sameEngine hengine]
    rfl
  refine ⟨t.withHost rest' (s'.responses ++ new), new, ?_, sameEngine_withHost t _ _, hnew, rfl⟩
  rw [step_event hp', hs']
  exact hevent rest' s'.responses

end Sys2Proof.Machine

/-! The memory's statements: the byte order, what ENC and DEC refuse and write, and what the port answers, stores and
keeps to itself, for one request and over a run. -/

namespace Sys2Proof.Machine

open Sys2Proof.Claims

/-! ### The byte order -/

theorem toNat_append_eq_add {m n : Nat} (x : BitVec m) (y : BitVec n) :
    (x ++ y).toNat = 2 ^ n * x.toNat + y.toNat := by
  rw [BitVec.toNat_append, Nat.shiftLeft_eq, Nat.mul_comm, Nat.two_pow_add_eq_or_of_lt y.isLt]

/-- `LE32` as a number (spec/20_memory.md R58). -/
theorem le32_toNat (b0 b1 b2 b3 : Byte) :
    (le32 b0 b1 b2 b3).toNat = b0.toNat + 2 ^ 8 * b1.toNat + 2 ^ 16 * b2.toNat + 2 ^ 24 * b3.toNat := by
  simp only [le32, toNat_append_eq_add]
  omega

/-- The bytes of `ST32` as numbers (spec/20_memory.md R59). -/
theorem st32_getElem_toNat (w : Word) {j : Nat} (hj : j < 4) :
    (st32 w)[j].toNat = w.toNat / 2 ^ (8 * j) % 2 ^ 8 := by
  have hbyte : (st32 w)[j] = w.extractLsb' (8 * j) 8 := by
    match j, hj with
    | 0, _ | 1, _ | 2, _ | 3, _ => rfl
  rw [hbyte, BitVec.extractLsb'_toNat, Nat.shiftRight_eq_div_pow]

/-- The bytes of a word make up the word. -/
theorem le32_st32 (w : Word) : le32 (st32 w)[0] (st32 w)[1] (st32 w)[2] (st32 w)[3] = w := by
  apply BitVec.eq_of_toNat_eq
  simp only [le32_toNat, st32_getElem_toNat]
  omega

/-- The word that four bytes make up has these bytes. -/
theorem st32_le32 (b0 b1 b2 b3 : Byte) : st32 (le32 b0 b1 b2 b3) = #v[b0, b1, b2, b3] := by
  refine Vector.ext fun j hj => BitVec.eq_of_toNat_eq ?_
  rw [st32_getElem_toNat _ hj, le32_toNat]
  match j, hj with
  | 0, _ | 1, _ | 2, _ | 3, _ => simp; omega

theorem bytesOfQuad_toList (q : Quad) :
    (bytesOfQuad q).toList = (st32 q.a).toList ++ (st32 q.b).toList ++ (st32 q.c).toList ++ (st32 q.d).toList := by
  simp only [bytesOfQuad, Vector.toList_append]

/-- The word of a block that a byte belongs to, and its place in the word (spec/20_memory.md R60). -/
theorem bytesOfQuad_getElem (q : Quad) {j : Nat} (hj : j < 16) :
    (bytesOfQuad q)[j] =
      if _ : j < 12 then
        if _ : j < 8 then if _ : j < 4 then (st32 q.a)[j] else (st32 q.b)[j - 4] else (st32 q.c)[j - 8]
      else (st32 q.d)[j - 12] := by
  have happend : (bytesOfQuad q)[j] = (st32 q.a ++ st32 q.b ++ st32 q.c ++ st32 q.d)[j] := rfl
  simp only [happend, Vector.getElem_append]

theorem quadOfBytes_bytesOfQuad (q : Quad) : quadOfBytes (bytesOfQuad q) = q := by
  simp [quadOfBytes, bytesOfQuad_getElem, le32_st32]

theorem bytesOfQuad_quadOfBytes (p : Bytes16) : bytesOfQuad (quadOfBytes p) = p := by
  refine Vector.ext fun j hj => ?_
  rw [bytesOfQuad_getElem _ hj]
  simp only [quadOfBytes, st32_le32]
  interval_cases j <;> rfl

/-- Settles O10: the numbers of words and bytes give the two round trips of a word, and these the round trips of a
block. -/
theorem blocksAreLittleEndian : Obligations.BlocksAreLittleEndian :=
  ⟨le32_toNat, fun w _ hj => st32_getElem_toNat w hj, fun _ => ⟨rfl, rfl, rfl, rfl⟩, bytesOfQuad_toList,
    quadOfBytes_bytesOfQuad, bytesOfQuad_quadOfBytes⟩

/-! ### The block commands -/

/-- When ENC or DEC has no meaning. -/
theorem blockCommand_refused_iff {f : RoundKeys → Bytes16 → Bytes16} {dst src : Nat} {s : State} {r : Refusal} :
    blockCommand f dst src s = .refused r ↔ r = .partialOverlap dst src ∧
      s.rkValid = true ∧ src ≤ 240 ∧ dst ≤ 240 ∧ dst ≠ src ∧ dst < src + 16 ∧ src < dst + 16 := by
  rw [← inRange_iff src, ← inRange_iff dst, ← partialOverlap_iff]
  constructor
  · intro h
    obtain ⟨hv, hs, hd, hp, hr⟩ := blockCommand_refused h
    exact ⟨hr, hv, hs, hd, hp⟩
  · rintro ⟨rfl, hv, hs, hd, hp⟩
    unfold blockCommand
    rw [if_neg (by simp [hv]), if_neg (not_not.2 hs), if_neg (not_not.2 hd), if_pos hp]

theorem execKsched_ne_refused (koff klen : Nat) (s : State) (r : Refusal) : execKsched koff klen s ≠ .refused r := by
  rcases execKsched_next koff klen s with ⟨_, e⟩ | ⟨_, _, e⟩ | ⟨_, _, e⟩ <;> rw [e] <;> nofun

theorem exec_enc (dst src : Nat) (s : State) : exec (.enc dst src) s = blockCommand encBlock dst src s := rfl

theorem exec_dec (dst src : Nat) (s : State) : exec (.dec dst src) s = blockCommand decBlock dst src s := rfl

/-- Settles O20: KSCHED and CLR always answer a next state, and ENC and DEC refuse the partial overlap only. -/
theorem partialOverlapIsTheOnlyRefusal : Obligations.PartialOverlapIsTheOnlyRefusal := by
  intro s i r
  cases i with
  | ksched koff klen => exact iff_of_false (execKsched_ne_refused koff klen s r) (by simp)
  | clr => exact iff_of_false nofun (by simp)
  | enc dst src => simp [exec_enc, blockCommand_refused_iff]
  | dec dst src => simp [exec_dec, blockCommand_refused_iff]

theorem not_partialOverlap_of_disjoint {dst src : Nat} (h : src + 16 ≤ dst ∨ dst + 16 ≤ src) :
    ¬ partialOverlap dst src := by
  rw [partialOverlap_iff]
  omega

theorem not_partialOverlap_self (src : Nat) : ¬ partialOverlap src src := by
  simp [partialOverlap_iff]

/-- R65 for any block function: both commands read the same 16 bytes and write the same output. -/
theorem blockCommand_inPlace_eq_disjoint (f : RoundKeys → Bytes16 → Bytes16) {s : State} {dst src : Nat}
    (hm : s.buf.wf = true) (hv : s.rkValid = true) (hs : src ≤ 240) (hd : dst ≤ 240)
    (hdisj : src + 16 ≤ dst ∨ dst + 16 ≤ src) :
    ∃ t u, blockCommand f dst src s = .next t ∧ blockCommand f src src s = .next u ∧
      ∀ j, j < 16 → t.buf.read (src + j) = s.buf.read (src + j) ∧ u.buf.read (src + j) = t.buf.read (dst + j) := by
  have hs' := (inRange_iff src).2 hs
  have hd' := (inRange_iff dst).2 hd
  refine ⟨_, _, blockCommand_acts f hv hs' hd' (not_partialOverlap_of_disjoint hdisj),
    blockCommand_acts f hv hs' hs' (not_partialOverlap_self src), fun j hj => ?_⟩
  simp only [complete_buf, storeBytes_buf]
  constructor
  · exact memWrite_read_outside _ _ _ (by omega)
  · rw [memWrite_read_inside hm _ (by omega) hj, memWrite_read_inside hm _ (by omega) hj]

/-- Settles O21: ENC and DEC are block commands. -/
theorem inPlaceGivesTheDisjointOutput : Obligations.InPlaceGivesTheDisjointOutput := by
  rintro s dst src cmd (rfl | rfl) hm hv hs hd hdisj
  · exact blockCommand_inPlace_eq_disjoint encBlock hm hv hs hd hdisj
  · exact blockCommand_inPlace_eq_disjoint decBlock hm hv hs hd hdisj

/-! ### Bus errors and the answers of the port -/

/-- The address map (spec/20_memory.md R51), row by row. -/
theorem portAt_cases (a : BitVec 9) :
    (a.toNat = 0x000 ∧ portAt a = .cmd) ∨ (a.toNat = 0x004 ∧ portAt a = .status) ∨
    (a.toNat = 0x008 ∧ portAt a = .errinfo) ∨ (a.toNat = 0x00C ∧ portAt a = .blksize) ∨
    (a.toNat ≠ 0x000 ∧ a.toNat ≠ 0x004 ∧ a.toNat ≠ 0x008 ∧ a.toNat ≠ 0x00C ∧ a.toNat < 0x100 ∧ portAt a = .unmapped) ∨
    (0x100 ≤ a.toNat ∧ portAt a = .window (a.toNat - 0x100)) := by
  unfold portAt
  split_ifs <;> simp_all

/-- The model's bus errors are the four conditions of spec/20_memory.md R56. -/
theorem isBusError_eq (r : Request) : isBusError r = busError r := by
  rw [Bool.eq_iff_iff]
  cases r with
  | read a =>
    rcases portAt_cases a with ⟨_, hp⟩ | ⟨_, hp⟩ | ⟨_, hp⟩ | ⟨_, hp⟩ | ⟨_, _, _, _, _, hp⟩ | ⟨_, hp⟩ <;>
      simp [isBusError, busError, misaligned, Request.addr, forbidden, *] <;> omega
  | write a d =>
    rcases portAt_cases a with ⟨_, hp⟩ | ⟨_, hp⟩ | ⟨_, hp⟩ | ⟨_, hp⟩ | ⟨_, _, _, _, _, hp⟩ | ⟨_, hp⟩ <;>
      simp [isBusError, busError, misaligned, Request.addr, forbidden, *] <;> omega

theorem busError_eq_false {r : Request} (halign : r.addr.toNat % 4 = 0) (hallowed : forbidden r (portAt r.addr) = false) :
    busError r = false := by
  simp [busError, misaligned, halign, hallowed]

/-- A bus error changes no element of the engine. -/
theorem step_busError {s : State} {r : Request} {rest : List HostEvent} (hp : s.pending = .request r :: rest)
    (hb : busError r = true) : step s = .next (respond errorResponse { s with pending := rest }) :=
  (step_request hp).trans (transact_busError hb)

/-- A write runs within the view of the host that it finds. -/
theorem writeEffect_pending {d : Word} {s u : State} {port : Port} (h : writeEffect d s port = .next u) :
    u.pending = s.pending := by
  have hview : writeEffect d s port = .next (u.withHost s.pending s.responses) :=
    writeEffect_withHost h s.pending s.responses
  rw [eq_of_next (hview.symm.trans h)]
  rfl

/-- A request gives exactly one response, with `rsp_err` set exactly on a bus error, and takes no event. -/
theorem transact_responds {r : Request} {s t : State} (h : transact r s = .next t) :
    ∃ v, t.responses = s.responses ++ [{ err := isBusError r, rdata := v }] ∧ t.pending = s.pending := by
  rw [isBusError_eq]
  unfold transact at h
  split_ifs at h with hb
  · rw [eq_of_next h, hb]
    exact ⟨0#32, rfl, rfl⟩
  · rw [Bool.eq_false_of_not_eq_true hb]
    cases r with
    | read a =>
      rw [eq_of_next h]
      exact ⟨readData s (portAt a), rfl, rfl⟩
    | write a d =>
      obtain ⟨u, hu, rfl⟩ := thenRespond_next h
      exact ⟨0#32, congrArg (· ++ [writeResponse]) (writeEffect_responses hu),
        (respond_pending writeResponse u).trans (writeEffect_pending hu)⟩

/-- Settles O29: the four conditions are the model's bus errors, and every request that goes on gives one response. -/
theorem busErrorsChangeNothing : Obligations.BusErrorsChangeNothing := by
  intro s r rest hp
  constructor
  · intro hb
    exact step_busError hp ((isBusError_eq r).symm.trans hb)
  · intro hb t ht
    rw [step_request hp] at ht
    obtain ⟨v, hv, _⟩ := transact_responds ht
    rw [hb] at hv
    exact ⟨v, hv⟩

/-! ### Reads -/

/-- What a read answers (spec/20_memory.md R54, R56). -/
def readResponse (a : BitVec 9) (s : State) : Response :=
  if busError (.read a) then errorResponse else { err := false, rdata := readData s (portAt a) }

theorem readResponse_of_busError {a : BitVec 9} (s : State) (h : busError (.read a) = true) :
    readResponse a s = errorResponse :=
  if_pos h

theorem readResponse_of_not_busError {a : BitVec 9} (s : State) (h : busError (.read a) = false) :
    readResponse a s = { err := false, rdata := readData s (portAt a) } :=
  if_neg (Bool.not_eq_true _ ▸ h)

/-- What a read answers at an aligned address of a readable port. -/
theorem readResponse_rdata {a : BitVec 9} {port : Port} (s : State) (halign : a.toNat % 4 = 0)
    (hport : portAt a = port) (hallowed : forbidden (.read a) port = false) :
    (readResponse a s).rdata = readData s port := by
  subst hport
  rw [readResponse_of_not_busError s (busError_eq_false halign hallowed)]

/-- A read changes no element of the engine. -/
theorem step_read {s : State} {a : BitVec 9} {rest : List HostEvent} (h : s.pending = .request (.read a) :: rest) :
    step s = .next (respond (readResponse a s) { s with pending := rest }) := by
  rw [step_request h, transact, readResponse]
  split_ifs
  · rfl
  · cases portAt a <;> rfl

/-- `STATUS` as a number (spec/10_state.md R26). -/
theorem statusWord_toNat (s : State) : (statusWord s).toNat = 16 * s.err.toNat + s.rkValid.toNat := by
  have herr := s.err.isLt
  have hvalid := s.rkValid.toNat_lt
  simp only [statusWord, BitVec.toNat_setWidth, toNat_append_eq_add, BitVec.toNat_ofBool, BitVec.toNat_ofNat]
  omega

/-- Settles O30: every read gives `readResponse`, and each readable address names its port. -/
theorem readsAnswerTheAddressMap : Obligations.ReadsAnswerTheAddressMap := by
  intro s addr rest hp
  refine ⟨readResponse addr s, step_read hp, fun hb => ?_, fun hb => ?_, fun ha => ?_, fun ha => ?_, fun ha => ?_,
    fun n ha => ?_⟩
  · rw [readResponse_of_busError s ((isBusError_eq _).symm.trans hb)]
    exact ⟨rfl, rfl⟩
  · rw [readResponse_of_not_busError s ((isBusError_eq _).symm.trans hb)]
  · rw [readResponse_rdata (port := .status) s (by omega) (by simp [portAt, ha]) rfl]
    exact statusWord_toNat s
  · rw [readResponse_rdata (port := .errinfo) s (by omega) (by simp [portAt, ha]) rfl]
    rfl
  · rw [readResponse_rdata (port := .blksize) s (by omega) (by simp [portAt, ha]) rfl]
    rfl
  · rw [readResponse_rdata s (by omega) (portAt_of_window ha) rfl]
    rfl

/-! ### Writes to the window -/

/-- The write of a window word stores the word's bytes and is answered. -/
theorem step_windowWrite {s : State} {a : BitVec 9} {d : Word} {rest : List HostEvent} {k : Nat}
    (hp : s.pending = .request (.write a d) :: rest) (hb : busError (.write a d) = false) (hk : portAt a = .window k) :
    step s = .next (respond writeResponse (storeBytes k (st32 d) { s with pending := rest })) := by
  rw [step_request hp, transact, hb]
  simp only [hk]
  rfl

/-- Settles O32: MemWrite of the word's four bytes. -/
theorem windowWritesStoreFourBytes : Obligations.WindowWritesStoreFourBytes := by
  intro s n addr data rest hp ha hm
  have hport := portAt_of_window ha
  have hb : busError (.write addr data) = false :=
    busError_eq_false (show addr.toNat % 4 = 0 by omega) (show forbidden _ (portAt addr) = false by rw [hport]; rfl)
  have hle := window_word_le hb hport
  refine ⟨_, step_windowWrite hp hb hport, fun j hj => ?_, fun a h => memWrite_read_outside s.buf _ _ h, rfl, rfl, rfl,
    rfl, rfl, rfl⟩
  rw [respond_buf, storeBytes_buf, memWrite_read_inside hm _ hle hj, st32_getElem_toNat data hj]

/-! ### RK is not readable -/

theorem readResponse_withRk (a : BitVec 9) (s : State) (rk : RoundKeys) :
    readResponse a { s with rk := rk } = readResponse a s := by
  unfold readResponse
  cases portAt a <;> rfl

/-- With other round keys ENC and DEC pass the same checks; only the bytes they write may differ. -/
theorem blockCommand_withRk {f : RoundKeys → Bytes16 → Bytes16} {dst src : Nat} {s u : State}
    (h : blockCommand f dst src s = .next u) (rk : RoundKeys) :
    ∃ rk' buf', blockCommand f dst src { s with rk := rk } = .next { u with rk := rk', buf := buf' } := by
  unfold blockCommand at h ⊢
  split_ifs at h ⊢ <;> rw [eq_of_next h] <;> exact ⟨_, _, rfl⟩

theorem execKsched_withRk {koff klen : Nat} {s u : State} (h : execKsched koff klen s = .next u) (rk : RoundKeys) :
    ∃ rk', execKsched koff klen { s with rk := rk } = .next { u with rk := rk' } := by
  unfold execKsched at h ⊢
  split_ifs at h ⊢ <;> rw [eq_of_next h] <;> exact ⟨_, rfl⟩

/-- A write to `CMD` that goes on is answered once the command's effects are in place. -/
theorem step_cmdWrite_next {s u : State} {c : Word} {rest : List HostEvent}
    (hp : s.pending = .request (.write 0x000#9 c) :: rest) (h : commandWrite c { s with pending := rest } = .next u) :
    step s = .next (respond writeResponse u) := by
  rw [step_request hp, transact_command, h]
  rfl

/-- With other round keys a command reports the same, and only ENC and DEC may leave another BUF. -/
theorem commandWrite_withRk {c : Word} {s u : State} (h : commandWrite c s = .next u) (rk : RoundKeys) :
    ∃ rk' buf', commandWrite c { s with rk := rk } = .next { u with rk := rk', buf := buf' } ∧
      ((¬ ∃ dst src, decode c = .ok (.enc dst src) ∨ decode c = .ok (.dec dst src)) → buf' = u.buf) := by
  unfold commandWrite at h ⊢
  cases hd : decode c with
  | error why =>
    rw [hd] at h
    rw [eq_of_next h]
    exact ⟨rk, s.buf, rfl, fun _ => rfl⟩
  | ok i =>
    rw [hd] at h
    cases i with
    | ksched koff klen =>
      obtain ⟨rk', e⟩ := execKsched_withRk h rk
      exact ⟨rk', u.buf, e, fun _ => rfl⟩
    | enc dst src =>
      obtain ⟨rk', buf', e⟩ := blockCommand_withRk h rk
      exact ⟨rk', buf', e, fun hn => absurd ⟨dst, src, .inl rfl⟩ hn⟩
    | dec dst src =>
      obtain ⟨rk', buf', e⟩ := blockCommand_withRk h rk
      exact ⟨rk', buf', e, fun hn => absurd ⟨dst, src, .inr rfl⟩ hn⟩
    | clr =>
      rw [eq_of_next (t := complete (discardKey s)) h]
      exact ⟨_, s.buf, rfl, fun _ => rfl⟩

/-- Settles O38: by the kinds of step; the answers of the port do not read RK, and of the commands only ENC and DEC
write what they compute from it. -/
theorem roundKeysAreNotReadable : Obligations.RoundKeysAreNotReadable := by
  intro s t rk h
  rcases step_next h with
    ⟨hp, rfl⟩ | ⟨a, rest, hp, rfl⟩ | ⟨r, rest, hp, hb, rfl⟩ | ⟨a, rest, hp, hb, rfl⟩ | ⟨a, d, rest, k, hp, hb, hk, rfl⟩ |
    ⟨c, rest, u, hp, hu, rfl⟩
  · exact ⟨_, step_idle hp, rfl, rfl, rfl, rfl, rfl, fun _ => rfl⟩
  · exact ⟨_, step_reset hp, rfl, rfl, rfl, rfl, rfl, fun _ => rfl⟩
  · exact ⟨_, step_busError hp hb, rfl, rfl, rfl, rfl, rfl, fun _ => rfl⟩
  · refine ⟨_, step_read hp, ?_, rfl, rfl, rfl, rfl, fun _ => rfl⟩
    rw [readResponse_withRk, readResponse_of_not_busError s hb]
    rfl
  · exact ⟨_, step_windowWrite hp hb hk, rfl, rfl, rfl, rfl, rfl, fun _ => rfl⟩
  · obtain ⟨rk', buf', e, hbuf⟩ := commandWrite_withRk hu rk
    refine ⟨_, step_cmdWrite_next (s := { s with rk := rk }) hp e, rfl, rfl, rfl, rfl, rfl, fun hn => hbuf ?_⟩
    rintro ⟨dst, src, hd⟩
    exact hn ⟨dst, src, hd.imp (fun hd => ⟨c, rest, hp, hd⟩) (fun hd => ⟨c, rest, hp, hd⟩)⟩

/-! ### Runs -/

theorem requestsOf_append (es es' : List HostEvent) : requestsOf (es ++ es') = requestsOf es ++ requestsOf es' := by
  induction es with
  | nil => rfl
  | cons e es ih => cases e <;> simp [requestsOf, ih]

/-- A step takes the oldest event, if there is one, and answers it if it is a request. -/
theorem step_answers {s t : State} (h : step s = .next t) :
    ∃ new : List Response, t.responses = s.responses ++ new ∧
      new.map (fun r => r.err) = (requestsOf (s.pending.take 1)).map isBusError ∧ t.pending = s.pending.drop 1 := by
  cases hp : s.pending with
  | nil =>
    rw [step_idle hp] at h
    rw [eq_of_next h]
    exact ⟨[], (List.append_nil _).symm, rfl, hp⟩
  | cons e rest =>
    cases e with
    | request r =>
      rw [step_request hp] at h
      obtain ⟨v, hv, hpending⟩ := transact_responds h
      exact ⟨_, hv, rfl, hpending⟩
    | reset a =>
      rw [step_reset hp] at h
      rw [eq_of_next h]
      exact ⟨[], (List.append_nil _).symm, rfl, rfl⟩

theorem run_answers {n : Nat} {s t : State} (h : Host.Core.run Sys2Proof.core n s = .next t) :
    ∃ new : List Response, t.responses = s.responses ++ new ∧
      new.map (fun r => r.err) = (requestsOf (s.pending.take n)).map isBusError ∧ t.pending = s.pending.drop n := by
  induction n generalizing s with
  | zero =>
    rw [run_zero] at h
    rw [eq_of_next h]
    exact ⟨[], (List.append_nil _).symm, rfl, rfl⟩
  | succ n ih =>
    obtain ⟨u, hu, hrun⟩ := run_succ_inv h
    obtain ⟨first, hfirst, herr, hpending⟩ := step_answers hu
    obtain ⟨later, hlater, herrs, hpendings⟩ := ih hrun
    refine ⟨first ++ later, ?_, ?_, ?_⟩
    · rw [hlater, hfirst, List.append_assoc]
    · rw [Nat.add_comm n 1, List.take_add, requestsOf_append, List.map_append, List.map_append, herr, herrs, hpending]
    · rw [hpendings, hpending, List.drop_drop, Nat.add_comm]

theorem thenRespond_refused {r : Response} {o : Host.Outcome State Fault Refusal} {why : Refusal}
    (h : thenRespond r o = .refused why) : o = .refused why := by
  cases o with
  | next u => simp [thenRespond] at h
  | fault f => exact nomatch f
  | refused f => exact h

/-- Only the write of a command can be refused. -/
theorem writeEffect_refused {d : Word} {s : State} {port : Port} {why : Refusal}
    (h : writeEffect d s port = .refused why) : port = .cmd ∧ ∃ i, decode d = .ok i ∧ exec i s = .refused why := by
  cases port with
  | cmd =>
    refine ⟨rfl, ?_⟩
    replace h : commandWrite d s = .refused why := h
    unfold commandWrite at h
    cases hd : decode d with
    | error e =>
      rw [hd] at h
      exact nomatch h
    | ok i =>
      rw [hd] at h
      exact ⟨i, rfl, h⟩
  | _ => exact nomatch h

/-- A transaction is refused only as the write of a command that is refused. -/
theorem transact_refused {r : Request} {s : State} {why : Refusal} (h : transact r s = .refused why) :
    ∃ c i, r = .write 0x000#9 c ∧ decode c = .ok i ∧ exec i s = .refused why := by
  unfold transact at h
  split_ifs at h
  cases r with
  | read a => exact nomatch h
  | write a d =>
    obtain ⟨hport, i, hd, hi⟩ := writeEffect_refused (thenRespond_refused h)
    exact ⟨d, i, by rw [portAt_cmd hport], hd, hi⟩

/-- A step without a meaning meets the partial overlap of spec/70_reset_and_hazards.md R273. -/
theorem hazardH3_of_refused {s : State} {why : Refusal} (h : step s = .refused why) : HazardH3 s := by
  cases hp : s.pending with
  | nil =>
    rw [step_idle hp] at h
    exact nomatch h
  | cons e rest =>
    cases e with
    | reset a =>
      rw [step_reset hp] at h
      exact nomatch h
    | request r =>
      rw [step_request hp] at h
      obtain ⟨c, i, rfl, hd, hi⟩ := transact_refused h
      obtain ⟨dst, src, hcmd, -, hv, hs, hdst, hoverlap⟩ := (partialOverlapIsTheOnlyRefusal _ i why).1 hi
      have hdecode : decode c = .ok (.enc dst src) ∨ decode c = .ok (.dec dst src) := by
        rcases hcmd with rfl | rfl
        · exact .inl hd
        · exact .inr hd
      exact ⟨c, dst, src, rest, hp, hdecode, hv, (inRange_iff src).2 hs, (inRange_iff dst).2 hdst,
        (partialOverlap_iff dst src).2 hoverlap⟩

theorem continues_of_not_hazardH3 {s : State} (h : ¬ HazardH3 s) : Continues s := by
  cases hs : step s with
  | next t => exact ⟨t, hs⟩
  | fault f => exact nomatch f
  | refused why => exact absurd (hazardH3_of_refused hs) h

theorem safeRun_of_not_hazardH3 {n : Nat} {s : State}
    (h : ∀ k t, k < n → Host.Core.run Sys2Proof.core k s = .next t → ¬ HazardH3 t) : SafeRun n s := by
  induction n generalizing s with
  | zero => exact ⟨s, rfl⟩
  | succ n ih =>
    obtain ⟨u, hu⟩ := continues_of_not_hazardH3 (h 0 s n.succ_pos (run_zero s))
    obtain ⟨t, ht⟩ := ih fun k v hk hrun => h (k + 1) v (Nat.succ_lt_succ hk) ((run_succ_next k hu).trans hrun)
    exact ⟨t, (run_succ_next n hu).trans ht⟩

/-- Settles O41: by induction on the number of steps, in both parts. -/
theorem everyRequestIsAnsweredInOrder : Obligations.EveryRequestIsAnsweredInOrder :=
  ⟨fun _ _ _ h => run_answers h, fun _ _ h => safeRun_of_not_hazardH3 h⟩

end Sys2Proof.Machine

/-! The encoding's statements: the round trips between words and commands, match and mask, what a word that is no
command does, and the transactions of the pseudo-instructions. -/

namespace Sys2Proof.Machine

open Sys2Proof.Claims

/-! ### The round trips -/

theorem encode_ksched_toNat {koff klen : Nat} (h : (Instr.ksched koff klen).WellFormed) :
    (encode (.ksched koff klen)).toNat = klen * 2 ^ 16 + koff * 2 ^ 8 + 1 := by
  rw [wellFormed_ksched] at h
  exact Nat.mod_eq_of_lt (by omega)

theorem encode_enc_toNat {dst src : Nat} (h : (Instr.enc dst src).WellFormed) :
    (encode (.enc dst src)).toNat = dst * 2 ^ 16 + src * 2 ^ 8 + 2 := by
  rw [wellFormed_enc] at h
  exact Nat.mod_eq_of_lt (by omega)

theorem encode_dec_toNat {dst src : Nat} (h : (Instr.dec dst src).WellFormed) :
    (encode (.dec dst src)).toNat = dst * 2 ^ 16 + src * 2 ^ 8 + 3 := by
  rw [wellFormed_dec] at h
  exact Nat.mod_eq_of_lt (by omega)

@[simp] theorem encode_clr_toNat : (encode .clr).toNat = 4 := rfl

/-- The fields of format K (spec/30_encoding.md R91). -/
theorem fields_of_format_k {c : Word} {koff klen op : Nat} (hop : op < 16) (hkoff : koff < 256)
    (h : c.toNat = klen * 2 ^ 16 + koff * 2 ^ 8 + op) :
    field c 0 4 = op ∧ field c 4 4 = 0 ∧ field c 8 8 = koff ∧ field c 16 16 = klen := by
  simp only [field_eq]
  omega

/-- The fields of format B (spec/30_encoding.md R91). -/
theorem fields_of_format_b {c : Word} {dst src op : Nat} (hop : op < 16) (hdst : dst < 256) (hsrc : src < 256)
    (h : c.toNat = dst * 2 ^ 16 + src * 2 ^ 8 + op) :
    field c 0 4 = op ∧ field c 4 4 = 0 ∧ field c 8 8 = src ∧ field c 16 8 = dst ∧ field c 24 8 = 0 := by
  simp only [field_eq]
  omega

/-- Settles O2: the fields of the encoding are the operands, and its must-be-zero fields are 0. -/
theorem decodeUndoesEncode : Obligations.DecodeUndoesEncode := by
  intro i hw
  cases i with
  | ksched koff klen =>
    obtain ⟨hkoff, -⟩ := (wellFormed_ksched koff klen).1 hw
    obtain ⟨hop, hz, hk, hl⟩ := fields_of_format_k (by decide) hkoff (encode_ksched_toNat hw)
    simp only [decode, hop, hz, hk, hl, if_true]
  | enc dst src =>
    obtain ⟨hdst, hsrc⟩ := (wellFormed_enc dst src).1 hw
    obtain ⟨hop, hz0, hs, hd, hz1⟩ := fields_of_format_b (by decide) hdst hsrc (encode_enc_toNat hw)
    simp only [decode, hop, hz0, hs, hd, hz1, and_self, if_true]
  | dec dst src =>
    obtain ⟨hdst, hsrc⟩ := (wellFormed_dec dst src).1 hw
    obtain ⟨hop, hz0, hs, hd, hz1⟩ := fields_of_format_b (by decide) hdst hsrc (encode_dec_toNat hw)
    simp only [decode, hop, hz0, hs, hd, hz1, and_self, if_true]
  | clr => decide

/-- The fields of a word that decodes to a command, put together again, are the word: what its format leaves out is 0. -/
theorem encode_of_decode {c : Word} {i : Instr} (h : decode c = .ok i) : encode i = c := by
  have hw := wellFormed_of_decode h
  apply BitVec.eq_of_toNat_eq
  unfold decode at h
  simp only [field_eq] at h
  split at h
  · split_ifs at h
    cases h
    rw [encode_ksched_toNat hw]
    omega
  · split_ifs at h
    cases h
    rw [encode_enc_toNat hw]
    omega
  · split_ifs at h
    cases h
    rw [encode_dec_toNat hw]
    omega
  · split_ifs at h
    cases h
    rw [encode_clr_toNat]
    omega
  · exact nomatch h

/-- Settles O3: the operands fit their fields, and the fields make up the word. -/
theorem encodeUndoesDecode : Obligations.EncodeUndoesDecode := fun _ _ h =>
  ⟨wellFormed_of_decode h, encode_of_decode h⟩

/-- Settles O1: the four words are the encodings of their commands. -/
theorem sampleWordsDecodeToTheirCommands : Obligations.SampleWordsDecodeToTheirCommands :=
  ⟨decodeUndoesEncode (.ksched 3 16) rfl, decodeUndoesEncode (.enc 80 64) rfl, decodeUndoesEncode (.dec 32 16) rfl,
    decodeUndoesEncode .clr rfl⟩

/-! ### Match and mask -/

/-- A mask that keeps the low byte determines the opcode and the must-be-zero field beside it. -/
theorem low_byte_of_mask {c mask pattern : Word} (h : c &&& mask = pattern) (hmask : mask.toNat % 2 ^ 8 = 2 ^ 8 - 1) :
    c.toNat % 2 ^ 8 = pattern.toNat % 2 ^ 8 := by
  rw [← h, BitVec.toNat_and, Nat.and_mod_two_pow, hmask, Nat.and_two_pow_sub_one_eq_mod, Nat.mod_mod]

/-- A mask that keeps the high byte determines the upper must-be-zero field of format B. -/
theorem high_byte_of_mask {c mask pattern : Word} (h : c &&& mask = pattern) (hmask : mask.toNat / 2 ^ 24 = 2 ^ 8 - 1) :
    c.toNat / 2 ^ 24 = pattern.toNat / 2 ^ 24 := by
  have hlt : c.toNat / 2 ^ 24 < 2 ^ 8 := by omega
  rw [← h, BitVec.toNat_and, Nat.and_div_two_pow, hmask, Nat.and_two_pow_sub_one_eq_mod, Nat.mod_eq_of_lt hlt]

/-- The operands of a word under a pattern of format B, and the word as their number. -/
theorem operands_of_mask_b {c pattern : Word} (h : c &&& 0xFF0000FF#32 = pattern) (hpattern : pattern.toNat < 2 ^ 8) :
    c.toNat / 2 ^ 16 < 256 ∧ c.toNat / 2 ^ 16 * 2 ^ 16 + c.toNat / 2 ^ 8 % 2 ^ 8 * 2 ^ 8 + pattern.toNat = c.toNat := by
  have hlow := low_byte_of_mask h rfl
  have hhigh := high_byte_of_mask h rfl
  omega

/-- A word with the number of a command's encoding decodes to the command. -/
theorem decode_of_toNat {c : Word} {i : Instr} (hw : i.WellFormed) (h : (encode i).toNat = c.toNat) :
    decode c = .ok i := by
  rw [← BitVec.eq_of_toNat_eq h]
  exact decodeUndoesEncode i hw

/-- A word that decodes to a command has the bits that the command's row of the table fixes. -/
theorem and_mask_of_decode {c : Word} {i : Instr} (h : decode c = .ok i) :
    c &&& Laws.TableBits.mask i = Laws.TableBits.pattern i := by
  rw [← encode_of_decode h]
  have hw := wellFormed_of_decode h
  cases i with
  | ksched koff klen => exact Laws.TableBits.ksched koff klen hw
  | enc dst src => exact Laws.TableBits.enc dst src hw
  | dec dst src => exact Laws.TableBits.dec dst src hw
  | clr => exact Laws.TableBits.clr hw

/-- A word that decodes to no command is illegal (spec/30_encoding.md R96). -/
theorem decode_error_of_not_ok {c : Word} (h : ∀ i, decode c ≠ .ok i) : ∃ why, decode c = .error why := by
  cases hd : decode c with
  | error why => exact ⟨why, rfl⟩
  | ok i => exact absurd hd (h i)

/-- Settles O4: a word under a pattern has the number of a command's encoding, and a decoded word is under its
command's pattern. -/
theorem decodingIsByMatchAndMask : Obligations.DecodingIsByMatchAndMask := by
  intro c
  have hc := c.isLt
  refine ⟨fun h => ?ksched, fun h => ?enc, fun h => ?dec, fun h => ?clr, fun hk he hd hclr => ?illegal⟩
  case ksched =>
    have hlow : c.toNat % 2 ^ 8 = 1 := low_byte_of_mask h rfl
    have hw := (wellFormed_ksched (c.toNat / 2 ^ 8 % 2 ^ 8) (c.toNat / 2 ^ 16)).2 (by omega)
    exact decode_of_toNat hw (by rw [encode_ksched_toNat hw]; omega)
  case enc =>
    obtain ⟨hdst, hn⟩ := operands_of_mask_b h (by decide)
    have hw := (wellFormed_enc (c.toNat / 2 ^ 16) (c.toNat / 2 ^ 8 % 2 ^ 8)).2 ⟨hdst, Nat.mod_lt _ (by decide)⟩
    exact decode_of_toNat hw ((encode_enc_toNat hw).trans hn)
  case dec =>
    obtain ⟨hdst, hn⟩ := operands_of_mask_b h (by decide)
    have hw := (wellFormed_dec (c.toNat / 2 ^ 16) (c.toNat / 2 ^ 8 % 2 ^ 8)).2 ⟨hdst, Nat.mod_lt _ (by decide)⟩
    exact decode_of_toNat hw ((encode_dec_toNat hw).trans hn)
  case clr =>
    subst h
    exact decodeUndoesEncode .clr wellFormed_clr
  case illegal =>
    refine decode_error_of_not_ok fun i hi => ?_
    have hbits := and_mask_of_decode hi
    cases i with
    | ksched koff klen => exact hk hbits
    | enc dst src => exact he hbits
    | dec dst src => exact hd hbits
    | clr => exact hclr (encode_of_decode hi).symm

/-! ### Illegal words and command words -/

/-- A word that decodes to a command has an opcode of 1..4 and zeros in the must-be-zero fields of its format
(spec/30_encoding.md R94, R95). -/
theorem fields_of_decode {c : Word} {i : Instr} (h : decode c = .ok i) :
    c.toNat % 2 ^ 8 = 1 ∨ ((c.toNat % 2 ^ 8 = 2 ∨ c.toNat % 2 ^ 8 = 3) ∧ c.toNat / 2 ^ 24 = 0) ∨ c.toNat = 4 := by
  cases i with
  | ksched koff klen =>
    have hbits : c &&& 0x000000FF#32 = 1#32 := and_mask_of_decode h
    exact .inl (low_byte_of_mask hbits rfl)
  | enc dst src =>
    have hbits : c &&& 0xFF0000FF#32 = 2#32 := and_mask_of_decode h
    exact .inr (.inl ⟨.inl (low_byte_of_mask hbits rfl), high_byte_of_mask hbits rfl⟩)
  | dec dst src =>
    have hbits : c &&& 0xFF0000FF#32 = 3#32 := and_mask_of_decode h
    exact .inr (.inl ⟨.inr (low_byte_of_mask hbits rfl), high_byte_of_mask hbits rfl⟩)
  | clr => exact .inr (.inr (congrArg BitVec.toNat (encode_of_decode h).symm))

/-- Settles O5: such a word has not the fields of a decoded one, so its write is the illegal command. -/
theorem illegalWordsRaiseIllegalCmd : Obligations.IllegalWordsRaiseIllegalCmd := by
  intro s c rest hp hc
  have herror : ∃ why, decode c = .error why := by
    refine decode_error_of_not_ok fun i hi => ?_
    have hfields := fields_of_decode hi
    omega
  obtain ⟨why, hd⟩ := herror
  exact ⟨⟨why, hd⟩, step_illegal hp hd⟩

/-- Settles O27: the step is the command followed by the answer to the write. -/
theorem stepRunsTheDecodedCommand : Obligations.StepRunsTheDecodedCommand := by
  intro s c i rest hp hd
  rw [step_command hp hd]
  constructor
  · intro t ht
    rw [ht]
    rfl
  · intro r hr
    rw [hr]
    rfl

/-! ### The transactions of PUT and GET -/

theorem expand_put_eq_some {off : Nat} {bytes : List Byte} {reqs : List Request}
    (h : Asm.expand (.put off bytes) = some reqs) :
    off % 4 = 0 ∧ off + bytes.length ≤ 256 ∧ bytes.length % 4 = 0 ∧ reqs = putRequests off bytes := by
  simp only [Asm.expand, Option.ite_none_right_eq_some, Option.some.injEq] at h
  obtain ⟨⟨halign, hwhole, hle⟩, hreqs⟩ := h
  exact ⟨halign, hle, hwhole, hreqs.symm⟩

theorem expand_get_eq_some {off m : Nat} {reqs : List Request} (h : Asm.expand (.get off m) = some reqs) :
    off % 4 = 0 ∧ off + 4 * m ≤ 256 ∧ reqs = getRequests off m := by
  simp only [Asm.expand, Option.ite_none_right_eq_some, Option.some.injEq] at h
  obtain ⟨⟨halign, hle⟩, hreqs⟩ := h
  exact ⟨halign, hle, hreqs.symm⟩

theorem windowAddr_toNat {k : Nat} (h : k < 256) : (windowAddr k).toNat = 0x100 + k :=
  Nat.mod_eq_of_lt (by omega)

theorem portAt_windowAddr {k : Nat} (h : k < 256) : portAt (windowAddr k) = .window k :=
  portAt_of_window (windowAddr_toNat h)

/-- An aligned window word may be read and written (spec/20_memory.md R56). -/
theorem busError_windowAddr {r : Request} {k : Nat} (hr : r.addr = windowAddr k) (h : k < 256) (halign : k % 4 = 0) :
    busError r = false := by
  have haddr := windowAddr_toNat h
  refine busError_eq_false (by rw [hr]; omega) ?_
  rw [hr, portAt_windowAddr h]
  cases r <;> rfl

/-- The write of one word of `PUT` stores its four bytes. -/
theorem step_putWord {s : State} {off : Nat} {b0 b1 b2 b3 : Byte} {rest : List HostEvent} (hoff : off < 256)
    (halign : off % 4 = 0) (hp : s.pending = .request (.write (windowAddr off) (le32 b0 b1 b2 b3)) :: rest) :
    step s = .next (respond writeResponse
      { s with buf := memWriteList s.buf off [b0, b1, b2, b3], pending := rest }) := by
  rw [step_windowWrite hp (busError_windowAddr rfl hoff halign) (portAt_windowAddr hoff), st32_le32]
  rfl

/-- The writes of `PUT` are one MemWrite of all its bytes, each write answered. -/
theorem run_putRequests :
    ∀ (off : Nat) (bytes : List Byte) (s : State) (rest : List HostEvent), off % 4 = 0 → off + bytes.length ≤ 256 →
      bytes.length % 4 = 0 → s.pending = (putRequests off bytes).map HostEvent.request ++ rest →
      Host.Core.run Sys2Proof.core (putRequests off bytes).length s = .next { s with
        buf := memWriteList s.buf off bytes, pending := rest,
        responses := s.responses ++ List.replicate (putRequests off bytes).length writeResponse }
  | off, [], s, rest, _, _, _, hp => by
    subst hp
    simp [putRequests, memWriteList, run_zero]
  | _, [_], _, _, _, _, hwhole, _ => absurd hwhole (by simp)
  | _, [_, _], _, _, _, _, hwhole, _ => absurd hwhole (by simp)
  | _, [_, _, _], _, _, _, _, hwhole, _ => absurd hwhole (by simp)
  | off, b0 :: b1 :: b2 :: b3 :: bytes, s, rest, halign, hle, hwhole, hp => by
    simp only [List.length_cons] at hle hwhole
    rw [putRequests, List.length_cons, run_succ_next _ (step_putWord (by omega) halign hp),
      run_putRequests (off + 4) bytes _ rest (by omega) (by omega) (by omega) rfl, respond_responses,
      List.append_assoc, List.replicate_succ, List.singleton_append]
    rfl

/-- Settles O42: MemWrite stores the bytes and leaves every other byte. -/
theorem putStoresItsBytes : Obligations.PutStoresItsBytes := by
  intro off bytes reqs s rest hexp hm hp
  obtain ⟨halign, hle, hwhole, rfl⟩ := expand_put_eq_some hexp
  exact ⟨_, run_putRequests off bytes s rest halign hle hwhole hp, memWriteList_read_inside bytes hm hle,
    fun a ha => memWriteList_read_outside bytes s.buf off ha, rfl, rfl, rfl, rfl, rfl, rfl⟩

/-- The response to the read of the window word whose lowest byte is `BUF[k]`. -/
def wordResponse (m : Memory) (k : Nat) : Response := { err := false, rdata := windowWord m k }

/-- The read of one word of `GET` answers the word. -/
theorem step_getWord {s : State} {off : Nat} {rest : List HostEvent} (hoff : off < 256) (halign : off % 4 = 0)
    (hp : s.pending = .request (.read (windowAddr off)) :: rest) :
    step s = .next (s.withHost rest (s.responses ++ [wordResponse s.buf off])) := by
  rw [step_read hp, readResponse_of_not_busError (a := windowAddr off) s (busError_windowAddr rfl hoff halign),
    portAt_windowAddr hoff]
  rfl

/-- The reads of `GET` answer the words in order and change the view of the host only. -/
theorem run_getRequests {off m : Nat} {s : State} {rest : List HostEvent} (halign : off % 4 = 0)
    (hle : off + 4 * m ≤ 256) (hp : s.pending = (getRequests off m).map HostEvent.request ++ rest) :
    Host.Core.run Sys2Proof.core m s = .next (s.withHost rest
      (s.responses ++ (List.range m).map fun n => wordResponse s.buf (off + 4 * n))) := by
  induction m generalizing off s with
  | zero =>
    subst hp
    simp [run_zero, State.withHost]
  | succ m ih =>
    have hnext (n : Nat) : off + 4 + 4 * n = off + 4 * (n + 1) := by omega
    rw [run_succ_next m (step_getWord (by omega) halign hp), ih (off := off + 4) (by omega) (by omega) rfl]
    simp [State.withHost, List.range_succ_eq_map, Function.comp_def, hnext]

/-- Settles O43: the words that the reads answer are those of BUF. -/
theorem getAnswersItsWords : Obligations.GetAnswersItsWords := by
  intro off m reqs s rest hexp hp
  obtain ⟨halign, hle, rfl⟩ := expand_get_eq_some hexp
  exact ⟨_, run_getRequests halign hle hp, ⟨rfl, rfl, rfl, rfl, rfl⟩, rfl, rfl⟩

end Sys2Proof.Machine

/-! The arithmetic's statements: each primitive of spec/40_arithmetic.md as a number, the rotations and the exclusive or
bit by bit, and the functions of the round built from them. -/

namespace Sys2Proof.Machine

/-! ### Addition, subtraction and multiplication -/

theorem add32_toNat (a b : Word) : (add32 a b).toNat = (a.toNat + b.toNat) % 2 ^ 32 := BitVec.toNat_add a b

theorem sub32_toNat (a b : Word) : ((sub32 a b).toNat : Int) = ((a.toNat : Int) - (b.toNat : Int)) % 2 ^ 32 := by
  have hsub : (sub32 a b).toNat = (2 ^ 32 - b.toNat + a.toNat) % 2 ^ 32 := BitVec.toNat_sub a b
  have hb : b.toNat < 2 ^ 32 := b.isLt
  omega

theorem mul32_toNat (a b : Word) : (mul32 a b).toNat = (a.toNat * b.toNat) % 2 ^ 32 := BitVec.toNat_mul a b

/-- Settles O6: the numbers of the three operations. -/
theorem arithmeticIsModulo : Obligations.ArithmeticIsModulo :=
  fun a b => ⟨add32_toNat a b, sub32_toNat a b, mul32_toNat a b⟩

/-! ### The exclusive or -/

theorem xor32_getLsbD_iff (a b : Word) (i : Nat) :
    (xor32 a b).getLsbD i = true ↔ a.getLsbD i ≠ b.getLsbD i := by
  rw [xor32, BitVec.getLsbD_xor, bne_iff_ne]

theorem xor32_xor32_cancel (a b : Word) : xor32 (xor32 a b) b = a := by
  rw [xor32, xor32, BitVec.xor_assoc, BitVec.xor_self, BitVec.xor_zero]

/-- Settles O44: the bits of an exclusive or, and its cancellation. -/
theorem xorSetsTheBitsThatDiffer : Obligations.XorSetsTheBitsThatDiffer :=
  fun a b => ⟨fun i _ => xor32_getLsbD_iff a b i, xor32_xor32_cancel a b⟩

/-! ### The rotations -/

/-- Which bit of the operand a left rotation puts at bit `j`. -/
theorem rotl32_getLsbD (x : Word) {n j : Nat} (hn : n < 32) (hj : j < 32) :
    (rotl32 x n).getLsbD j = x.getLsbD ((j + 32 - n) % 32) := by
  rw [rotl32, BitVec.getLsbD_rotateLeft_of_le hn]
  by_cases hwrap : j < n
  · have hidx : (j + 32 - n) % 32 = 32 - n + j := by omega
    simp [hwrap, hidx]
  · have hidx : (j + 32 - n) % 32 = j - n := by omega
    simp [hwrap, hidx, hj]

theorem rotl32_zero (x : Word) : rotl32 x 0 = x := by
  refine BitVec.eq_of_getLsbD_eq fun j hj => ?_
  rw [rotl32_getLsbD x (by decide) hj, show (j + 32 - 0) % 32 = j by omega]

theorem rotr32_zero (x : Word) : rotr32 x 0 = x := by
  simp [rotr32, BitVec.rotateRight_def]

/-- Every fact about a right rotation follows from one about a left rotation by the complement (R126). -/
theorem rotr32_eq_rotl32 (x : Word) {n : Nat} (hn : n < 32) : rotr32 x n = rotl32 x ((32 - n) % 32) := by
  rcases Nat.eq_zero_or_pos n with rfl | hpos
  · exact (rotr32_zero x).trans (rotl32_zero x).symm
  · have hcomp : (32 - n) % 32 = 32 - n := Nat.mod_eq_of_lt (by omega)
    rw [rotr32, rotl32, BitVec.rotateRight_def, BitVec.rotateLeft_def, Nat.mod_mod, hcomp, Nat.mod_eq_of_lt hn,
      Nat.sub_sub_self hn.le, BitVec.or_comm]

theorem rotl32_getLsbD_moved (x : Word) {n i : Nat} (hn : n < 32) (hi : i < 32) :
    (rotl32 x n).getLsbD ((i + n) % 32) = x.getLsbD i := by
  rw [rotl32_getLsbD x hn (Nat.mod_lt _ (by decide)), show ((i + n) % 32 + 32 - n) % 32 = i by omega]

theorem rotr32_getLsbD_moved (x : Word) {n i : Nat} (hn : n < 32) (hi : i < 32) :
    (rotr32 x n).getLsbD ((i + 32 - n) % 32) = x.getLsbD i := by
  rw [rotr32_eq_rotl32 x hn, show (i + 32 - n) % 32 = (i + (32 - n) % 32) % 32 by omega]
  exact rotl32_getLsbD_moved x (Nat.mod_lt _ (by decide)) hi

/-- The bits that a left rotation moves up and the bits that it wraps round do not meet, so their union is a sum. -/
theorem rotl32_toNat (x : Word) {n : Nat} (hn : n < 32) :
    (rotl32 x n).toNat = (x.toNat * 2 ^ n) % 2 ^ 32 + x.toNat / 2 ^ (32 - n) := by
  have hpow : 2 ^ 32 = 2 ^ (32 - n) * 2 ^ n := by rw [← pow_add, Nat.sub_add_cancel hn.le]
  have hmoved : (x.toNat * 2 ^ n) % 2 ^ 32 = 2 ^ n * (x.toNat % 2 ^ (32 - n)) := by
    rw [hpow, Nat.mul_mod_mul_right, Nat.mul_comm]
  have hwrapped : x.toNat / 2 ^ (32 - n) < 2 ^ n := Nat.div_lt_of_lt_mul (hpow ▸ x.isLt)
  rw [rotl32, BitVec.toNat_rotateLeft, Nat.mod_eq_of_lt hn, Nat.shiftLeft_eq, Nat.shiftRight_eq_div_pow, hmoved,
    Nat.two_pow_add_eq_or_of_lt hwrapped]

theorem rotr32_toNat (x : Word) {n : Nat} (hpos : 1 ≤ n) (hn : n < 32) :
    (rotr32 x n).toNat = x.toNat / 2 ^ n + (x.toNat * 2 ^ (32 - n)) % 2 ^ 32 := by
  have hlt : 32 - n < 32 := by omega
  rw [rotr32_eq_rotl32 x hn, Nat.mod_eq_of_lt hlt, rotl32_toNat x hlt, Nat.sub_sub_self hn.le, Nat.add_comm]

/-- Left rotations by two counts that add up to 0 modulo 32 bring every bit back. -/
theorem rotl32_rotl32_cancel (x : Word) {m n : Nat} (hm : m < 32) (hn : n < 32) (hsum : (m + n) % 32 = 0) :
    rotl32 (rotl32 x m) n = x := by
  refine BitVec.eq_of_getLsbD_eq fun j hj => ?_
  rw [rotl32_getLsbD _ hn hj, rotl32_getLsbD x hm (Nat.mod_lt _ (by decide)),
    show ((j + 32 - n) % 32 + 32 - m) % 32 = j by omega]

theorem rotr32_rotl32 (x : Word) {n : Nat} (hn : n < 32) : rotr32 (rotl32 x n) n = x := by
  rw [rotr32_eq_rotl32 _ hn]
  exact rotl32_rotl32_cancel x hn (Nat.mod_lt _ (by decide)) (by omega)

theorem rotl32_rotr32 (x : Word) {n : Nat} (hn : n < 32) : rotl32 (rotr32 x n) n = x := by
  rw [rotr32_eq_rotl32 x hn]
  exact rotl32_rotl32_cancel x (Nat.mod_lt _ (by decide)) hn (by omega)

/-- Settles O7: the moved bits and the numbers of both rotations. -/
theorem rotationsMoveEveryBit : Obligations.RotationsMoveEveryBit :=
  fun x _ hn => ⟨fun _ => rotl32_getLsbD_moved x hn, fun _ => rotr32_getLsbD_moved x hn, rotl32_toNat x hn,
    fun hpos => rotr32_toNat x hpos hn, rotr32_zero x⟩

/-- Settles O8: a right rotation is the left one by the complement, and the two counts cancel. -/
theorem rotationsUndoEachOther : Obligations.RotationsUndoEachOther :=
  fun x _ hn => ⟨rotr32_rotl32 x hn, rotl32_rotr32 x hn, rotr32_eq_rotl32 x hn⟩

/-! ### The quadratic function and the masked count -/

theorem quad_toNat (x : Word) : (quad x).toNat = (x.toNat * (2 * x.toNat + 1)) % 2 ^ 32 := by
  have hfactor : (add32 (add32 x x) 1#32).toNat = (2 * x.toNat + 1) % 2 ^ 32 := by
    rw [add32_toNat, add32_toNat, ← Nat.two_mul, BitVec.toNat_ofNat, ← Nat.add_mod]
  rw [quad, mul32_toNat, hfactor, Nat.mul_mod_mod]

theorem G_toNat (x : Word) : (G x).toNat = ((quad x).toNat * 32) % 2 ^ 32 + (quad x).toNat / 2 ^ 27 :=
  rotl32_toNat (quad x) (n := 5) (by decide)

theorem rotCount_eq_and (x : Word) : rotCount x = (x &&& 31#32).toNat := by
  rw [BitVec.toNat_and]
  exact (Nat.and_two_pow_sub_one_eq_mod x.toNat 5).symm

/-- Settles O9: the number of the quadratic function, of its rotation by 5, and the count as the low five bits. -/
theorem quadraticFunctionAndMaskedCount : Obligations.QuadraticFunctionAndMaskedCount :=
  fun x => ⟨quad_toNat x, G_toNat x, rotCount_eq_and x⟩

end Sys2Proof.Machine

/-! The key schedule's statements: the mixing iterations as they follow one another from their start, and the checks and
the effect of KSCHED. -/

namespace Sys2Proof.Machine

/-! ### The mixing iterations -/

/-- `mixSteps` runs its first iteration first; its last iteration can be split off as well. -/
theorem mixSteps_succ_eq_mixStep (n : Nat) (m : KeyMix) : mixSteps (n + 1) m = mixStep (mixSteps n m) := by
  induction n generalizing m with
  | zero => rfl
  | succ n ih => exact ih (mixStep m)

theorem mixStep_i (m : KeyMix) : ((mixStep m).i : Nat) = (m.i + 1) % 44 := Fin.val_add m.i 1

theorem mixStep_j (m : KeyMix) : ((mixStep m).j : Nat) = (m.j + 1) % 4 := Fin.val_add m.j 1

/-- Where the cursor into the round-key array stands after `k` iterations. -/
theorem mixSteps_mixStart_i (key : Bytes16) (k : Nat) : ((mixSteps k (mixStart key)).i : Nat) = k % 44 := by
  induction k with
  | zero => rfl
  | succ k ih => rw [mixSteps_succ_eq_mixStep, mixStep_i, ih, Nat.mod_add_mod]

/-- Where the cursor into the key words stands after `k` iterations. -/
theorem mixSteps_mixStart_j (key : Bytes16) (k : Nat) : ((mixSteps k (mixStart key)).j : Nat) = k % 4 := by
  induction k with
  | zero => rfl
  | succ k ih => rw [mixSteps_succ_eq_mixStep, mixStep_j, ih, Nat.mod_add_mod]

/-- The four assignments of one iteration (spec/41_key_schedule.md R152), with the cursors as numbers. -/
theorem mixStep_assignments {m : KeyMix} {i j : Nat} (hi : i < 44) (hj : j < 4) (hmi : m.i = i) (hmj : m.j = j) :
    (mixStep m).KA = rotl32 (add32 (add32 m.S[i] m.KA) m.KB) 3 ∧
    (mixStep m).KB = rotl32 (add32 m.L[j] (add32 (mixStep m).KA m.KB)) ((add32 (mixStep m).KA m.KB).toNat % 32) ∧
    (mixStep m).S = m.S.set i (mixStep m).KA ∧
    (mixStep m).L = m.L.set j (mixStep m).KB := by
  subst hmi hmj
  exact ⟨rfl, rfl, rfl, rfl⟩

/-- The key words are decoded little-endian, in order (spec/20_memory.md R61). -/
theorem mixStart_L_getElem (key : Bytes16) {n : Nat} (hn : n < 4) :
    (mixStart key).L[n] = le32 key[4 * n] key[4 * n + 1] key[4 * n + 2] key[4 * n + 3] := by
  match n, hn with
  | 0, _ | 1, _ | 2, _ | 3, _ => rfl

/-- Settles O12: the sequences are the working registers after `k` iterations, and the cursors count the iterations. -/
theorem keyExpandRunsTheMixingIterations : Obligations.KeyExpandRunsTheMixingIterations := by
  intro key
  refine ⟨fun k => (mixSteps k (mixStart key)).S, fun k => (mixSteps k (mixStart key)).L,
    fun k => (mixSteps k (mixStart key)).KA, fun k => (mixSteps k (mixStart key)).KB, rfl, rfl, rfl,
    fun n hn => mixStart_L_getElem key hn, fun k _ i j hi hj hik hjk => ?_, rfl⟩
  simp only [mixSteps_succ_eq_mixStep]
  exact mixStep_assignments hi hj ((mixSteps_mixStart_i key k).trans hik.symm)
    ((mixSteps_mixStart_j key k).trans hjk.symm)

/-! ### The command KSCHED -/

/-- A successful KSCHED writes the Cipher and clears the report (spec/41_key_schedule.md R153). -/
theorem complete_installKey (rk : RoundKeys) (s : State) :
    complete (installKey rk s) = { s with rk := rk, rkValid := true, err := 0#4, errinfo := 0#32 } := rfl

/-- Settles O13: the outcomes of KSCHED are its two errors and the new Cipher, and the 16 bytes read are the key. -/
theorem kschedChecksAndEffect : Obligations.KschedChecksAndEffect := by
  intro s koff klen
  have hexec : exec (.ksched koff klen) s = execKsched koff klen s := rfl
  rw [hexec, ← not_inRange_iff, ← inRange_iff]
  rcases execKsched_next koff klen s with ⟨hk, e⟩ | ⟨hk, ho, e⟩ | ⟨hk, ho, e⟩ <;> rw [e]
  · exact ⟨fun _ => rfl, fun h => absurd h hk, fun h => absurd h hk⟩
  · exact ⟨fun h => absurd hk h, fun _ _ => rfl, fun _ h => absurd h ho⟩
  · refine ⟨fun h => absurd hk h, fun _ h => absurd ho h, fun _ _ key hkey => ?_⟩
    rw [(memRead16_eq_iff s.buf koff key).2 hkey, complete_installKey]

end Sys2Proof.Machine

/-! Encryption: the rounds of EncBlock as they follow one another, and the checks and the effect of a block command
whatever its block function is. -/

namespace Sys2Proof.Machine

open Sys2Proof.Claims

/-! ### The rounds of EncBlock -/

theorem rkWord_eq_getElem (rk : RoundKeys) {n : Nat} (h : n < 44) : rkWord rk n = rk[n] := dif_pos h

/-- The four words after the pre-whitening (spec/42_encrypt.md R172, step 2). -/
theorem preWhiten_assignments (rk : RoundKeys) (q : Quad) :
    (preWhiten rk q).a = q.a ∧ (preWhiten rk q).b = add32 q.b rk[0] ∧
    (preWhiten rk q).c = q.c ∧ (preWhiten rk q).d = add32 q.d rk[1] :=
  ⟨rfl, rfl, rfl, rfl⟩

/-- The four words after round `i` (spec/42_encrypt.md R172, step 3), whose round keys are within the array. -/
theorem encRound_assignments (rk : RoundKeys) (q : Quad) {i : Nat} (hi : 2 * i + 1 < 44) :
    (encRound rk i q).a = q.b ∧
    (encRound rk i q).b = add32 (rotl32 (xor32 q.c (G q.d)) (rotCount (G q.b))) rk[2 * i + 1] ∧
    (encRound rk i q).c = q.d ∧
    (encRound rk i q).d = add32 (rotl32 (xor32 q.a (G q.b)) (rotCount (G q.d))) rk[2 * i] := by
  rw [← rkWord_eq_getElem rk hi, ← rkWord_eq_getElem rk (Nat.lt_of_succ_lt hi)]
  exact ⟨rfl, rfl, rfl, rfl⟩

/-- The bytes of a block after the post-whitening (spec/42_encrypt.md R172, steps 4 and 5). -/
theorem bytesOfQuad_postWhiten_toList (rk : RoundKeys) (q : Quad) :
    (bytesOfQuad (postWhiten rk q)).toList =
      (st32 (add32 q.a rk[42])).toList ++ (st32 q.b).toList ++ (st32 (add32 q.c rk[43])).toList ++ (st32 q.d).toList :=
  bytesOfQuad_toList (postWhiten rk q)

/-- The working registers of EncBlock after `i` rounds. -/
def encQuad (rk : RoundKeys) (p : Bytes16) (i : Nat) : Quad := encRounds rk i (preWhiten rk (quadOfBytes p))

theorem encQuad_succ (rk : RoundKeys) (p : Bytes16) (i : Nat) :
    encQuad rk p (i + 1) = encRound rk (i + 1) (encQuad rk p i) := rfl

theorem encBlock_eq_encQuad (rk : RoundKeys) (p : Bytes16) :
    encBlock rk p = bytesOfQuad (postWhiten rk (encQuad rk p 20)) := rfl

/-- Settles O15: the sequences are the working registers after `i` rounds. -/
theorem encBlockRunsTheRounds : Obligations.EncBlockRunsTheRounds := by
  intro rk p
  obtain ⟨ha, hb, hc, hd⟩ := preWhiten_assignments rk (quadOfBytes p)
  refine ⟨fun i => (encQuad rk p i).a, fun i => (encQuad rk p i).b, fun i => (encQuad rk p i).c,
    fun i => (encQuad rk p i).d, ha, hb, hc, hd, fun i hi => ?_, ?_⟩
  · simp only [encQuad_succ]
    exact encRound_assignments rk (encQuad rk p i) (by omega)
  · rw [encBlock_eq_encQuad]
    exact bytesOfQuad_postWhiten_toList rk (encQuad rk p 20)

/-! ### The checks and the effect of a block command -/

theorem blockCommand_noKey (f : RoundKeys → Bytes16 → Bytes16) (dst src : Nat) {s : State} (hv : s.rkValid = false) :
    blockCommand f dst src s = .next (raiseError .noKey 0#32 s) :=
  if_pos hv

theorem blockCommand_srcRange (f : RoundKeys → Bytes16 → Bytes16) (dst : Nat) {src : Nat} {s : State}
    (hv : s.rkValid = true) (hs : ¬ inRange src) :
    blockCommand f dst src s = .next (raiseError .bufRange (BitVec.ofNat 32 src) s) := by
  unfold blockCommand
  rw [if_neg (by simp [hv]), if_pos hs]

theorem blockCommand_dstRange (f : RoundKeys → Bytes16 → Bytes16) {dst src : Nat} {s : State}
    (hv : s.rkValid = true) (hs : inRange src) (hd : ¬ inRange dst) :
    blockCommand f dst src s = .next (raiseError .bufRange (BitVec.ofNat 32 dst) s) := by
  unfold blockCommand
  rw [if_neg (by simp [hv]), if_neg (not_not.2 hs), if_pos hd]

/-- With all checks passed, the output block is at `dst`, the report is cleared, and nothing else changes. -/
theorem blockCommand_effect (f : RoundKeys → Bytes16 → Bytes16) {dst src : Nat} {s : State} (hm : s.buf.wf = true)
    (hv : s.rkValid = true) (hs : inRange src) (hd : inRange dst) (hp : ¬ partialOverlap dst src) :
    ∃ t, blockCommand f dst src s = .next t ∧
      (∀ (j : Nat) (hj : j < 16), t.buf.read (dst + j) = (f s.rk (memRead16 s.buf src))[j]) ∧
      (∀ a, a < dst ∨ dst + 16 ≤ a → t.buf.read a = s.buf.read a) ∧
      t.rk = s.rk ∧ t.rkValid = s.rkValid ∧ t.err = 0#4 ∧ t.errinfo = 0#32 ∧
      t.pending = s.pending ∧ t.responses = s.responses :=
  ⟨_, blockCommand_acts f hv hs hd hp, fun _ hj => memWrite_read_inside hm _ hd hj,
    fun _ ha => memWrite_read_outside s.buf dst _ ha, rfl, rfl, rfl, rfl, rfl, rfl⟩

/-- R171 and R191 for any command that is the block command of `f`. -/
theorem blockCommand_checksAndEffect {cmd : Nat → Nat → Instr} {f : RoundKeys → Bytes16 → Bytes16}
    (hexec : ∀ dst src s, exec (cmd dst src) s = blockCommand f dst src s) : BlockCommand cmd f := by
  intro s dst src
  simp only [hexec, ← not_inRange_iff, ← inRange_iff]
  refine ⟨blockCommand_noKey f dst src, blockCommand_srcRange f dst, blockCommand_dstRange f, ?_, ?_⟩
  · intro hv hs hd hne hlt hgt
    exact ⟨_, blockCommand_refused_iff.2 ⟨rfl, hv, (inRange_iff src).1 hs, (inRange_iff dst).1 hd, hne, hlt, hgt⟩⟩
  · intro hm hv hs hd happart p hpsrc
    have hp : ¬ partialOverlap dst src := by
      rw [partialOverlap_iff]
      omega
    rw [← (memRead16_eq_iff s.buf src p).2 hpsrc]
    exact blockCommand_effect f hm hv hs hd hp

/-- Settles O17: ENC is the block command of EncBlock. -/
theorem encChecksAndEffect : Obligations.EncChecksAndEffect := blockCommand_checksAndEffect exec_enc

end Sys2Proof.Machine

/-! Decryption: the rounds of DecBlock as they follow one another, the checks and the effect of DEC, and the two block
functions undoing each other, as functions and as in-place commands. -/

namespace Sys2Proof.Machine

open Sys2Proof.Claims

/-! ### The rounds of DecBlock -/

/-- The four words once the post-whitening is undone (spec/43_decrypt.md R192, the first step). -/
theorem undoPostWhiten_assignments (rk : RoundKeys) (q : Quad) :
    (undoPostWhiten rk q).a = sub32 q.a rk[42] ∧ (undoPostWhiten rk q).b = q.b ∧
    (undoPostWhiten rk q).c = sub32 q.c rk[43] ∧ (undoPostWhiten rk q).d = q.d :=
  ⟨rfl, rfl, rfl, rfl⟩

/-- The four words after backward round `i` (spec/43_decrypt.md R192): the un-rotated `B` and `D`, which give `t` and
`u`, are the `A` and `C` of the start of the round. -/
theorem decRound_assignments (rk : RoundKeys) (q : Quad) {i : Nat} (hi : 2 * i + 1 < 44) :
    (decRound rk i q).a = xor32 (rotr32 (sub32 q.d rk[2 * i]) (rotCount (G q.c))) (G q.a) ∧
    (decRound rk i q).b = q.a ∧
    (decRound rk i q).c = xor32 (rotr32 (sub32 q.b rk[2 * i + 1]) (rotCount (G q.a))) (G q.c) ∧
    (decRound rk i q).d = q.c := by
  rw [← rkWord_eq_getElem rk hi, ← rkWord_eq_getElem rk (Nat.lt_of_succ_lt hi)]
  exact ⟨rfl, rfl, rfl, rfl⟩

/-- The bytes of a block once the pre-whitening is undone (spec/43_decrypt.md R192, the last steps). -/
theorem bytesOfQuad_undoPreWhiten_toList (rk : RoundKeys) (q : Quad) :
    (bytesOfQuad (undoPreWhiten rk q)).toList =
      (st32 q.a).toList ++ (st32 (sub32 q.b rk[0])).toList ++ (st32 q.c).toList ++ (st32 (sub32 q.d rk[1])).toList :=
  bytesOfQuad_toList (undoPreWhiten rk q)

/-- The working registers of DecBlock after `k` backward rounds: those of numbers 20 down to `21 - k`. -/
def decQuad (rk : RoundKeys) (q : Bytes16) : Nat → Quad
  | 0 => undoPostWhiten rk (quadOfBytes q)
  | k + 1 => decRound rk (20 - k) (decQuad rk q k)

/-- Backward round `i + 1` has `19 - i` rounds before it. -/
theorem decQuad_eq_decRound (rk : RoundKeys) (q : Bytes16) {i : Nat} (hi : i < 20) :
    decQuad rk q (20 - i) = decRound rk (i + 1) (decQuad rk q (20 - (i + 1))) := by
  have hcount : 20 - i = 20 - (i + 1) + 1 := by omega
  have hround : 20 - (20 - (i + 1)) = i + 1 := by omega
  rw [hcount, decQuad, hround]

/-- The rounds still to come bring any of the working registers to the last ones. -/
theorem decRounds_decQuad (rk : RoundKeys) (q : Bytes16) :
    ∀ {n k : Nat}, n + k = 20 → decRounds rk n (decQuad rk q k) = decQuad rk q 20
  | 0, k, h => by rw [decRounds, show k = 20 by omega]
  | n + 1, k, h => by
    have hround : decRound rk (n + 1) (decQuad rk q k) = decQuad rk q (k + 1) := by
      rw [decQuad, show 20 - k = n + 1 by omega]
    rw [decRounds, hround]
    exact decRounds_decQuad rk q (by omega)

theorem decBlock_eq_decQuad (rk : RoundKeys) (q : Bytes16) :
    decBlock rk q = bytesOfQuad (undoPreWhiten rk (decQuad rk q 20)) := by
  rw [← decRounds_decQuad rk q (Nat.add_zero 20)]
  rfl

/-- Settles O16: the sequences at `i` are the working registers after the `20 - i` rounds before backward round `i`. -/
theorem decBlockRunsTheRoundsBackwards : Obligations.DecBlockRunsTheRoundsBackwards := by
  intro rk q
  obtain ⟨ha, hb, hc, hd⟩ := undoPostWhiten_assignments rk (quadOfBytes q)
  refine ⟨fun i => (decQuad rk q (20 - i)).a, fun i => (decQuad rk q (20 - i)).b,
    fun i => (decQuad rk q (20 - i)).c, fun i => (decQuad rk q (20 - i)).d, ?_⟩
  refine ⟨ha, hb, hc, hd, fun i hi => ?_, ?_⟩
  · simp only [decQuad_eq_decRound rk q hi]
    exact decRound_assignments rk (decQuad rk q (20 - (i + 1))) (by omega)
  · rw [decBlock_eq_decQuad]
    exact bytesOfQuad_undoPreWhiten_toList rk (decQuad rk q 20)

/-! ### The checks and the effect of DEC -/

/-- Settles O18: DEC is the block command of DecBlock. -/
theorem decChecksAndEffect : Obligations.DecChecksAndEffect := blockCommand_checksAndEffect exec_dec

/-! ### The block functions undo each other -/

theorem sub32_add32_cancel (a k : Word) : sub32 (add32 a k) k = a := BitVec.add_sub_cancel a k

theorem add32_sub32_cancel (a k : Word) : add32 (sub32 a k) k = a := BitVec.sub_add_cancel a k

/-- One word of a backward round undoes the same word of the round. -/
theorem undoWord_mixWord (x v k : Word) {n : Nat} (hn : n < 32) :
    xor32 (rotr32 (sub32 (add32 (rotl32 (xor32 x v) n) k) k) n) v = x := by
  rw [sub32_add32_cancel, rotr32_rotl32 _ hn, xor32_xor32_cancel]

/-- One word of a round undoes the same word of the backward round. -/
theorem mixWord_undoWord (x v k : Word) {n : Nat} (hn : n < 32) :
    add32 (rotl32 (xor32 (xor32 (rotr32 (sub32 x k) n) v) v) n) k = x := by
  rw [xor32_xor32_cancel, rotl32_rotr32 _ hn, add32_sub32_cancel]

/-- The backward round finds the `t` and `u` of the round, since the round leaves `B` and `D` in the quadruple. -/
theorem decRound_encRound (rk : RoundKeys) (i : Nat) (q : Quad) : decRound rk i (encRound rk i q) = q := by
  simp only [decRound, encRound, undoWord_mixWord _ _ _ (rotCount_lt _)]

theorem encRound_decRound (rk : RoundKeys) (i : Nat) (q : Quad) : encRound rk i (decRound rk i q) = q := by
  simp only [decRound, encRound, mixWord_undoWord _ _ _ (rotCount_lt _)]

theorem decRounds_encRounds (rk : RoundKeys) (n : Nat) (q : Quad) : decRounds rk n (encRounds rk n q) = q := by
  induction n with
  | zero => rfl
  | succ n ih => rw [encRounds, decRounds, decRound_encRound, ih]

theorem encRounds_decRounds (rk : RoundKeys) (n : Nat) (q : Quad) : encRounds rk n (decRounds rk n q) = q := by
  induction n generalizing q with
  | zero => rfl
  | succ n ih => rw [decRounds, encRounds, ih, encRound_decRound]

theorem undoPreWhiten_preWhiten (rk : RoundKeys) (q : Quad) : undoPreWhiten rk (preWhiten rk q) = q := by
  simp only [undoPreWhiten, preWhiten, sub32_add32_cancel]

theorem preWhiten_undoPreWhiten (rk : RoundKeys) (q : Quad) : preWhiten rk (undoPreWhiten rk q) = q := by
  simp only [undoPreWhiten, preWhiten, add32_sub32_cancel]

theorem undoPostWhiten_postWhiten (rk : RoundKeys) (q : Quad) : undoPostWhiten rk (postWhiten rk q) = q := by
  simp only [undoPostWhiten, postWhiten, sub32_add32_cancel]

theorem postWhiten_undoPostWhiten (rk : RoundKeys) (q : Quad) : postWhiten rk (undoPostWhiten rk q) = q := by
  simp only [undoPostWhiten, postWhiten, add32_sub32_cancel]

theorem decBlock_encBlock (rk : RoundKeys) (p : Bytes16) : decBlock rk (encBlock rk p) = p := by
  rw [decBlock, encBlock, quadOfBytes_bytesOfQuad, undoPostWhiten_postWhiten, decRounds_encRounds,
    undoPreWhiten_preWhiten, bytesOfQuad_quadOfBytes]

theorem encBlock_decBlock (rk : RoundKeys) (p : Bytes16) : encBlock rk (decBlock rk p) = p := by
  rw [decBlock, encBlock, quadOfBytes_bytesOfQuad, preWhiten_undoPreWhiten, encRounds_decRounds,
    postWhiten_undoPostWhiten, bytesOfQuad_quadOfBytes]

/-! ### The in-place commands undo each other -/

/-- MemRead gives back the bytes that MemWrite stored. -/
theorem memRead16_memWrite {m : Memory} (hm : m.wf = true) {off : Nat} (p : Bytes16) (h : off + 16 ≤ 256) :
    memRead16 (memWrite m off p) off = p :=
  (memRead16_eq_iff _ off p).2 fun _ hj => memWrite_read_inside hm p h hj

/-- Writing back the bytes that a write to the same place overwrote restores the memory. -/
theorem memWrite_memWrite_memRead16 {m : Memory} (hm : m.wf = true) {off : Nat} (p : Bytes16) (h : off + 16 ≤ 256) :
    memWrite (memWrite m off p) off (memRead16 m off) = m := by
  have hm' : (memWrite m off p).wf = true := memWrite_wf hm p h
  refine Memory.ext_of_wf (memWrite_wf hm' _ h) hm fun a => ?_
  by_cases hout : a < off ∨ off + 16 ≤ a
  · rw [memWrite_read_outside _ _ _ hout, memWrite_read_outside _ _ _ hout]
  · obtain ⟨j, rfl⟩ := Nat.exists_eq_add_of_le (show off ≤ a by omega)
    have hj : j < 16 := by omega
    rw [memWrite_read_inside hm' _ h hj, memRead16_get m off hj]

/-- Two in-place block commands, one after the other, restore BUF when the second block function undoes the first. -/
theorem blockCommand_blockCommand_restores {f g : RoundKeys → Bytes16 → Bytes16} (hgf : ∀ rk p, g rk (f rk p) = p)
    {s : State} {x : Nat} (hm : s.buf.wf = true) (hv : s.rkValid = true) (hx : x ≤ 240) :
    ∃ t u, blockCommand f x x s = .next t ∧ blockCommand g x x t = .next u ∧ u.buf = s.buf := by
  have hx' : inRange x := (inRange_iff x).2 hx
  have hself : ¬ partialOverlap x x := not_partialOverlap_self x
  refine ⟨_, _, blockCommand_acts f hv hx' hx' hself, blockCommand_acts g (by simpa using hv) hx' hx' hself, ?_⟩
  simp only [complete_buf, complete_rk, storeBytes_buf, storeBytes_rk]
  rw [memRead16_memWrite hm _ hx', hgf, memWrite_memWrite_memRead16 hm _ hx']

/-- Settles O22: the rounds and the whitenings undo each other, step by step, and so do the in-place commands of the two
block functions. -/
theorem decryptUndoesEncrypt : Obligations.DecryptUndoesEncrypt :=
  ⟨fun rk p => ⟨decBlock_encBlock rk p, encBlock_decBlock rk p⟩, fun _ _ hm hv hx =>
    ⟨blockCommand_blockCommand_restores decBlock_encBlock hm hv hx,
      blockCommand_blockCommand_restores encBlock_decBlock hm hv hx⟩⟩

end Sys2Proof.Machine

/-! The system operations: what CLR leaves behind and for how long the engine is then without a Cipher, and the read of
the block size. -/

namespace Sys2Proof.Machine

open Sys2Proof.Claims

/-! ### CLR -/

/-- CLR always goes on (spec/44_system.md R210). -/
theorem exec_clr (s : State) : exec .clr s = .next (complete (discardKey s)) := rfl

theorem complete_discardKey (s : State) :
    complete (discardKey s) =
      { s with rk := Vector.replicate 44 0#32, rkValid := false, err := 0#4, errinfo := 0#32 } := rfl

/-- A second CLR finds nothing left to discard. -/
theorem exec_clr_idempotent {s t : State} (h : exec .clr s = .next t) : exec .clr t = .next t := by
  rw [exec_clr] at h
  rw [eq_of_next h]
  rfl

/-- An engine without a Cipher stays without one on every step but a successful KSCHED: CLR and a reset leave none, and
no other step touches `RK_VALID`. -/
theorem rkValid_false_of_not_ksched {s t : State} (hv : s.rkValid = false) (h : step s = .next t)
    (hk : ¬ ∃ koff, koff ≤ 240 ∧ Runs s (.ksched koff 16)) : t.rkValid = false := by
  by_cases hc : Runs s .clr
  · exact rkValid_of_clr hc h
  by_cases hr : Resets s
  · exact rkValid_of_reset hr h
  obtain ⟨hvalid, _⟩ := cipher_unchanged h hk hc hr
  exact hvalid.trans hv

/-- Settles O23: the effect of CLR and its idempotence, `RK_VALID` along the steps, and the first check of ENC and DEC. -/
theorem clrDiscardsTheCipher : Obligations.ClrDiscardsTheCipher := by
  refine ⟨fun s => ?_, fun _ _ => exec_clr_idempotent, fun _ _ => rkValid_false_of_not_ksched,
    fun s dst src hv => ⟨?_, ?_⟩⟩
  · rw [exec_clr, complete_discardKey]
  · exact (exec_enc dst src s).trans (blockCommand_noKey encBlock dst src hv)
  · exact (exec_dec dst src s).trans (blockCommand_noKey decBlock dst src hv)

/-! ### The block size -/

/-- 0x00C is `BLKSIZE`, which holds its constant whatever the state is (spec/10_state.md R28). -/
theorem readResponse_blksize (s : State) : readResponse 0x00C#9 s = { err := false, rdata := 16#32 } :=
  readResponse_of_not_busError s (by decide)

/-- Settles O31: the read of `BLKSIZE` changes nothing of the engine and answers its constant. -/
theorem blockSizeIsAlways16 : Obligations.BlockSizeIsAlways16 := by
  refine ⟨rfl, fun s rest hp => ?_⟩
  rw [step_read hp, readResponse_blksize]
  rfl

end Sys2Proof.Machine

/-! The errors' statements: what a command that ends in an error leaves unchanged, when KSCHED, ENC and DEC raise the
first of their errors, and that no command reads the report of an earlier one. -/

namespace Sys2Proof.Machine

open Sys2Proof.Claims

/-! ### Errors have no partial effect -/

/-- Only an error entry leaves a code other than 0: the effects of the four commands end in success
(spec/60_exceptions.md R237). -/
theorem raiseError_of_commandWrite_err_ne {c : Word} {s u : State} (h : commandWrite c s = .next u) (he : u.err ≠ 0#4) :
    ∃ e info, u = raiseError e info s := by
  rcases commandWrite_effect h with herror | ⟨_, _, _, rfl⟩ | ⟨_, _, _, _, _, _, _, rfl⟩ | ⟨_, rfl⟩
  · exact herror
  all_goals exact absurd (complete_err _) he

/-- Settles O24: such a command is an error entry, and its code and information are those of the command's report. -/
theorem errorsHaveNoPartialEffect : Obligations.ErrorsHaveNoPartialEffect := by
  intro s t c rest hp h he
  obtain ⟨u, hu, rfl⟩ := step_commandWrite hp h
  obtain ⟨e, info, rfl⟩ := raiseError_of_commandWrite_err_ne hu he
  have hreport : (e.code, info) = report c s.rkValid := commandWrite_report hu
  rw [← hreport]
  rfl

/-! ### INVALID_KEY_SIZE and NO_KEY -/

/-- Settles O14: of the three outcomes of KSCHED only the failed length check leaves the code 1. -/
theorem invalidKeySizeExactlyWhenNot16 : Obligations.InvalidKeySizeExactlyWhenNot16 := by
  intro s koff klen
  rcases execKsched_next koff klen s with ⟨hk, e⟩ | ⟨hk, _, e⟩ | ⟨hk, _, e⟩
  · exact ⟨_, e, iff_of_true rfl hk, fun _ => ⟨rfl, rfl, rfl, rfl⟩⟩
  · exact ⟨_, e, iff_of_false (by simp [ErrorKind.code]) (not_not.2 hk), fun h => absurd hk h⟩
  · exact ⟨_, e, iff_of_false (by simp [codeNone]) (not_not.2 hk), fun h => absurd hk h⟩

/-- With a Cipher a block command ends in a range error or in success, never in `NO_KEY`. -/
theorem rkValid_false_of_blockCommand_noKey {f : RoundKeys → Bytes16 → Bytes16} {dst src : Nat} {s t : State}
    (h : blockCommand f dst src s = .next t) (he : t.err = 2#4) : s.rkValid = false := by
  rcases blockCommand_next h with ⟨hv, _⟩ | ⟨_, _, rfl⟩ | ⟨_, _, _, rfl⟩ | ⟨_, _, _, _, rfl⟩
  · exact hv
  · simp [ErrorKind.code] at he
  · simp [ErrorKind.code] at he
  · simp [codeNone] at he

/-- Settles O19: ENC and DEC are block commands. -/
theorem noKeyExactlyWhenNoCipher : Obligations.NoKeyExactlyWhenNoCipher := by
  rintro s dst src i (rfl | rfl)
  · exact ⟨blockCommand_noKey encBlock dst src, fun _ => rkValid_false_of_blockCommand_noKey⟩
  · exact ⟨blockCommand_noKey decBlock dst src, fun _ => rkValid_false_of_blockCommand_noKey⟩

/-! ### Earlier reports -/

section
variable (s : State) (e : BitVec 4) (info : Word)

/-- An error entry keeps nothing of the report before it. -/
theorem raiseError_withReport (kind : ErrorKind) (info' : Word) :
    raiseError kind info' { s with err := e, errinfo := info } = raiseError kind info' s := rfl

/-- Success keeps nothing of the report before it. -/
theorem complete_withReport : complete { s with err := e, errinfo := info } = complete s := rfl

/-- A new Cipher is installed beside whatever report stands. -/
theorem installKey_withReport (rk : RoundKeys) :
    installKey rk { s with err := e, errinfo := info } = { installKey rk s with err := e, errinfo := info } := rfl

/-- Bytes are stored beside whatever report stands. -/
theorem storeBytes_withReport {n : Nat} (off : Nat) (bytes : Vector Byte n) :
    storeBytes off bytes { s with err := e, errinfo := info } =
      { storeBytes off bytes s with err := e, errinfo := info } := rfl

theorem execKsched_withReport (koff klen : Nat) :
    execKsched koff klen { s with err := e, errinfo := info } = execKsched koff klen s := by
  simp only [execKsched, raiseError_withReport, installKey_withReport, complete_withReport]

theorem blockCommand_withReport (f : RoundKeys → Bytes16 → Bytes16) (dst src : Nat) :
    blockCommand f dst src { s with err := e, errinfo := info } = blockCommand f dst src s := by
  simp only [blockCommand, raiseError_withReport, storeBytes_withReport, complete_withReport]

end

/-- Settles O26: no check reads the report, and every outcome overwrites it. -/
theorem earlierReportsDoNotMatter : Obligations.EarlierReportsDoNotMatter := by
  intro s i e info
  cases i with
  | ksched koff klen => exact execKsched_withReport s e info koff klen
  | enc dst src => exact blockCommand_withReport s e info encBlock dst src
  | dec dst src => exact blockCommand_withReport s e info decBlock dst src
  | clr => exact congrArg Host.Outcome.next (complete_withReport (discardKey s) e info)

end Sys2Proof.Machine

/-! Reset and hazards: what a reset puts at its reset value, and the one hazard that stops a step. -/

namespace Sys2Proof.Machine

open Sys2Proof.Claims

/-! ### Reset -/

/-- Only the host's view outlives a reset (spec/70_reset_and_hazards.md R270). -/
theorem sameEngine_resetEngine (s : State) : SameEngine (resetEngine s) State.reset := ⟨rfl, rfl, rfl, rfl, rfl⟩

/-- Settles O33: a reset event answers `resetEngine`, whose BUF lists no byte and whose RK repeats one zero word. -/
theorem resetZeroesTheEngine : Obligations.ResetZeroesTheEngine := by
  intro s a rest hp
  refine ⟨_, step_reset hp, fun i hi => ?_, resetEngine_rkValid _, resetEngine_err _, resetEngine_errinfo _,
    fun k => ?_, sameEngine_resetEngine _, resetEngine_pending _, resetEngine_responses _⟩
  · rw [resetEngine_rk, Vector.getElem_replicate]
  · rw [resetEngine_buf, Memory.read_nil]

/-! ### Hazard H-3 -/

/-- A step that meets the partial overlap of spec/70_reset_and_hazards.md R273 has no meaning. -/
theorem refused_of_hazardH3 {s : State} (h : HazardH3 s) : ∃ why, step s = .refused why := by
  obtain ⟨c, dst, src, rest, hp, hd, hv, hs, hdst, hoverlap⟩ := h
  obtain ⟨i, hcmd, hi⟩ : ∃ i, (i = .enc dst src ∨ i = .dec dst src) ∧ decode c = .ok i :=
    hd.elim (fun hd => ⟨_, .inl rfl, hd⟩) (fun hd => ⟨_, .inr rfl, hd⟩)
  have hexec : exec i { s with pending := rest } = .refused (.partialOverlap dst src) :=
    (partialOverlapIsTheOnlyRefusal _ i _).2 ⟨dst, src, hcmd, rfl, hv, (inRange_iff src).1 hs, (inRange_iff dst).1 hdst,
      (partialOverlap_iff dst src).1 hoverlap⟩
  exact ⟨_, (stepRunsTheDecodedCommand s c i rest hp hi).2 _ hexec⟩

theorem not_hazardH3_of_continues {s : State} (h : Continues s) : ¬ HazardH3 s := by
  intro hazard
  obtain ⟨t, ht⟩ := h
  obtain ⟨why, hwhy⟩ := refused_of_hazardH3 hazard
  exact nomatch ht.symm.trans hwhy

/-- Settles O36: a state that faces the hazard is refused, and a step that is refused meets the hazard. -/
theorem onlyHazardH3Stops : Obligations.OnlyHazardH3Stops := fun _ =>
  ⟨not_hazardH3_of_continues, continues_of_not_hazardH3⟩

end Sys2Proof.Machine
